-- ==== Sys2Proof/Word.lean ====
section
/-! DEFINITION. The bit-vector types of the block (spec/00_scope.md R5: WORD_W = 16, ADDR_W = 4, DATA_W = 11). -/

namespace Sys2Proof

/-- A command word, a reply word, a register snapshot, one field code inside a word: 16 bits, unsigned (R5, R8). -/
abbrev Word := BitVec 16

/-- A register address of the chip: 4 bits, so that an address above 15 cannot be written down (R33, R54). -/
abbrev Addr := BitVec 4

/-- The data payload of a command word: 11 bits (R5, R53). -/
abbrev Payload := BitVec 11

/-- The port `req_reg` and the element `S.REG`: an index into REGTABLE. Addresses are distinct and 4 bits wide, so
REGTABLE has at most 16 entries and 4 bits index all of them (R10; log entry 10). -/
abbrev RegIdx := BitVec 4

/-- The port `req_field`: a field index. Fields do not overlap and lie in 11 bits, so a register has at most 11 of
them (R10; log entry 10). -/
abbrev FieldIdx := BitVec 4

end Sys2Proof
end

