-- ==== Sys2Proof/Config.lean ====
section
/-! DEFINITION. The types of what is fixed when the block is built: register descriptors (spec/10_state.md R10, R11) and
the parameters of spec/00_scope.md R5. Their values, the checks on them and the counts computed from them are in
Sys2Proof/Machine/Table.lean. -/

namespace Sys2Proof

/-- Names of fields: the twelve the spec names (R12, R13) and a number for the fields of further descriptors. -/
inductive FieldName where
  | commOption | pwmMode
  | fault | tempFlag4 | pvddUvfl | pvddOvfl | vdsStatus | vchpUvfl | tempFlag1 | tempFlag2 | tempFlag3 | otw
  | other (n : Nat)
  deriving DecidableEq, Repr

/-- Names of enumeration members: the five the spec names (R12) and a number for those of further descriptors. -/
inductive MemberName where
  | diode | active | six | three | one
  | other (n : Nat)
  deriving DecidableEq, Repr

/-- The value domain of a field (R11): `Raw(w)`, with `w` the field's width, or an enumeration whose members carry
their integer codes. -/
inductive Domain where
  | raw
  | enumerated (members : List (MemberName × Nat))
  deriving DecidableEq, Repr

/-- A field descriptor: "a bit-offset, a bit-width, and a value-domain" (R11). -/
structure FieldDesc where
  name   : FieldName
  offset : Nat
  width  : Nat
  domain : Domain
  deriving DecidableEq, Repr

/-- A register descriptor: "an address in [0, 15] (4-bit field), and an ordered set of field descriptors" (R10). -/
structure RegDesc where
  address : Addr
  fields  : List FieldDesc
  deriving DecidableEq, Repr

/-- The parameters of R5. `extra` is what REGTABLE holds beyond its two mandatory entries (D10). Nothing here is
state (R23): State carries one `Params` that no step writes, so that a statement holds for every build (log entry 1).
DESIGN CHOICE: the three times are whole nanoseconds; R5 says only "open, > 0" of `T_CLK_NS`, and a clock of 12.5 ns
cannot be stated. Unsafe (log entry 24). -/
structure Params where
  wwFlags       : List (FieldName × Nat)
  extra         : List RegDesc
  tCsSetupMinNs : Nat
  tCsHighMinNs  : Nat
  tClkNs        : Nat
  terrW         : Nat
  hasModifyReread : Bool
  deriving DecidableEq, Repr

end Sys2Proof
end

