-- ==== Sys2Proof/Syntax.lean ====
section
/-! DEFINITION. The instructions: one constructor of `Instr` for each row of spec/opcode_table.json, their operand types
(spec/30_encoding.md R60, R64), and the two shapes in which a request reaches the block. -/

namespace Sys2Proof

/-- The operation kind of a command word (spec/10_state.md R15). -/
inductive Kind where
  | read
  | write
  deriving DecidableEq, Repr

/-- A command word (R15). The invariant "kind = Read implies payload = 0" is `CmdWord.constructible`. -/
structure CmdWord where
  kind    : Kind
  address : Addr
  payload : Payload
  deriving DecidableEq, Repr

/-- A register value as the ports `req_val` and `mod_res` carry it (R64): `bits[15:0]` followed by one code per field in
descriptor order, each at its field's width. The widths of one register sum to at most 11 (R10), so 11 bits carry
the codes of any register; field 0 takes the lowest of them (log entry 11). -/
structure ValPort where
  bits  : Word
  codes : BitVec 11
  deriving DecidableEq, Repr

/-- The members of `comm_option` (spec/10_state.md R12). -/
inductive CommOption where
  | diode
  | active
  deriving DecidableEq, Repr

/-- The members of `pwm_mode` (R12); the pattern 3 has no member and cannot be written down. -/
inductive PwmMode where
  | six
  | three
  | one
  deriving DecidableEq, Repr

/-- The sixteen values of the host operation select (spec/30_encoding.md R60). -/
inductive HostOp where
  | address | decode | encode | getField | withField
  | makeRead | makeWrite | toWire | fromWire
  | execute | read | write | modify | modifyReread
  | reservedE | reservedF
  deriving DecidableEq, Repr

/-- The operations. `rd` and `wr` are the two wire words of R52; the others are the host operations of R60;
`withCommOption`, `withPwmMode`, `withWwFlag` are the named instances of `withField` (R75 to R77). The function `f` of
`modify` and `modifyReread` is no part of the request: it answers on the port `mod_res` (R64, R112; log entry 14). -/
inductive Instr where
  | rd (a : Addr)
  | wr (a : Addr) (d : Payload)
  | address (r : RegIdx)
  | decode (r : RegIdx) (raw : Word)
  | encode (r : RegIdx) (v : ValPort)
  | getField (r : RegIdx) (v : ValPort) (k : FieldIdx)
  | withField (r : RegIdx) (v : ValPort) (k : FieldIdx) (x : BitVec 11)
  | makeRead (a : Addr)
  | makeWrite (a : Addr) (p : Word)
  | toWire (c : CmdWord)
  | fromWire (raw : Word)
  | execute (c : CmdWord)
  | read (r : RegIdx)
  | write (r : RegIdx) (v : ValPort)
  | modify (r : RegIdx)
  | modifyReread (r : RegIdx)
  | reservedE
  | reservedF
  | withCommOption (v : ValPort) (x : CommOption)
  | withPwmMode (v : ValPort) (x : PwmMode)
  | withWwFlag (v : ValPort) (j : FieldIdx) (b : BitVec 1)
  deriving DecidableEq, Repr

/-- The request ports of the host side (R64). -/
structure HostPorts where
  op    : BitVec 4
  reg   : RegIdx
  field : FieldIdx
  addr  : Addr
  word  : Word
  cmd   : Word
  val   : ValPort
  fval  : BitVec 11
  deriving DecidableEq, Repr

/-- What the host presents: a request on the ports of R64, or a bare command word to be framed (the table's rows of
format WIRE16; log entry 8). -/
inductive Request where
  | host (p : HostPorts)
  | wire (w : Word)
  deriving DecidableEq, Repr

end Sys2Proof
end

