-- ==== Sys2Proof/WellFormed.lean ====
section
/-! DEFINITION. Well-formed instructions: the checks that need no register table. What depends on REGTABLE (an index
without an entry, a code without a member) is checked by the meaning, against the parameters State carries. -/

namespace Sys2Proof

/-- The invariant of a command word: "kind = Read implies payload = 0" (spec/10_state.md R15). -/
def CmdWord.constructible (c : CmdWord) : Bool :=
  match c.kind with
  | .read => c.payload == 0#11
  | .write => true

/-- The operands are ones the operation's rule admits: a constructible command word (R15, R59 item b; D22), one of the ten
flags (spec/40_codec.md R77). -/
def Instr.wf : Instr → Bool
  | .toWire c => c.constructible
  | .execute c => c.constructible
  | .withWwFlag _ j _ => decide (j.toNat < 10)
  | .rd _ | .wr _ _ | .address _ | .decode _ _ | .encode _ _ | .getField _ _ _ | .withField _ _ _ _
  | .makeRead _ | .makeWrite _ _ | .fromWire _ | .read _ | .write _ _ | .modify _ | .modifyReread _
  | .reservedE | .reservedF | .withCommOption _ _ | .withPwmMode _ _ => true

/-- The driver operations (R60: "they run the sequencer"), and the two wire words, which run it too. -/
def Instr.isDriver : Instr → Bool
  | .rd _ | .wr _ _ | .execute _ | .read _ | .write _ _ | .modify _ | .modifyReread _ => true
  | .address _ | .decode _ _ | .encode _ _ | .getField _ _ _ | .withField _ _ _ _
  | .makeRead _ | .makeWrite _ _ | .toWire _ | .fromWire _
  | .reservedE | .reservedF | .withCommOption _ _ | .withPwmMode _ _ | .withWwFlag _ _ _ => false

end Sys2Proof
end

