-- ==== Sys2Proof/Decode.lean ====
section
/-! DEFINITION. From a request's bits to an instruction, total and rejecting by name (spec/30_encoding.md R50, R52, R59,
R60, R64), and after it the encoder, from the same tables. -/

namespace Sys2Proof

/-- The code of a host operation (R60). -/
def HostOp.code : HostOp → BitVec 4
  | .address => 0x0#4 | .decode => 0x1#4 | .encode => 0x2#4 | .getField => 0x3#4
  | .withField => 0x4#4 | .makeRead => 0x5#4 | .makeWrite => 0x6#4 | .toWire => 0x7#4
  | .fromWire => 0x8#4 | .execute => 0x9#4 | .read => 0xA#4 | .write => 0xB#4
  | .modify => 0xC#4 | .modifyReread => 0xD#4 | .reservedE => 0xE#4 | .reservedF => 0xF#4

/-- The host operation a code selects (R60); all sixteen codes have a row. -/
def HostOp.ofCode (c : BitVec 4) : HostOp :=
  match c.toNat with
  | 0 => .address | 1 => .decode | 2 => .encode | 3 => .getField
  | 4 => .withField | 5 => .makeRead | 6 => .makeWrite | 7 => .toWire
  | 8 => .fromWire | 9 => .execute | 10 => .read | 11 => .write
  | 12 => .modify | 13 => .modifyReread | 14 => .reservedE | _ => .reservedF

/-- Why a request is no instruction. -/
inductive Reject where
  /-- A command word with bit 15 = 1 and a non-zero bit in 10:0 (R59 item b; D22). -/
  | readWithPayload
  deriving DecidableEq, Repr

/-- Bit 15: 1 = read, 0 = write (R50). -/
def kindOfBit (b : BitVec 1) : Kind := if b = 1#1 then .read else .write

/-- The bit of a kind, as a number (R50). -/
def Kind.bit : Kind → Nat
  | .read => 1
  | .write => 0

/-- The three parts of a word in the layout of R50 (spec/41_framer.md R95 calls this PARSE). -/
def parseCmd (w : Word) : CmdWord where
  kind := kindOfBit (w.extractLsb' 15 1)
  address := w.extractLsb' 11 4
  payload := w.extractLsb' 0 11

/-- A command word on `req_cmd`: "a word with bit 15 = 1 and a non-zero bit in 10:0 is refused" (D22). -/
def decodeCmd (w : Word) : Except Reject CmdWord :=
  if (parseCmd w).constructible then .ok (parseCmd w) else .error .readWithPayload

/-- A bare wire word (R52): bit 15 alone tells `RD` from `WR`. -/
def decodeWire (w : Word) : Except Reject Instr :=
  match decodeCmd w with
  | .error e => .error e
  | .ok c =>
    match c.kind with
    | .read => .ok (.rd c.address)
    | .write => .ok (.wr c.address c.payload)

/-- A request on the host ports (R60, R64). Ports the operation does not name are not read. The code 0x4 is
`WITH_FIELD`, whose instances R75 to R77 have no code of their own (log entry 9). -/
def decodeHost (p : HostPorts) : Except Reject Instr :=
  match HostOp.ofCode p.op with
  | .address => .ok (.address p.reg)
  | .decode => .ok (.decode p.reg p.word)
  | .encode => .ok (.encode p.reg p.val)
  | .getField => .ok (.getField p.reg p.val p.field)
  | .withField => .ok (.withField p.reg p.val p.field p.fval)
  | .makeRead => .ok (.makeRead p.addr)
  | .makeWrite => .ok (.makeWrite p.addr p.word)
  | .toWire => (decodeCmd p.cmd).map .toWire
  | .fromWire => .ok (.fromWire p.word)
  | .execute => (decodeCmd p.cmd).map .execute
  | .read => .ok (.read p.reg)
  | .write => .ok (.write p.reg p.val)
  | .modify => .ok (.modify p.reg)
  | .modifyReread => .ok (.modifyReread p.reg)
  | .reservedE => .ok .reservedE
  | .reservedF => .ok .reservedF

/-- The decoder. -/
def decodeRequest : Request → Except Reject Instr
  | .wire w => decodeWire w
  | .host p => decodeHost p

/-- A host request as one number, op code lowest: op 3:0, reg 7:4, field 11:8, addr 15:12, word 31:16, cmd 47:32,
val.bits 63:48, val.codes 74:64, fval 85:75; higher bits are not read (log entry 10). -/
def HostPorts.ofNumber (w : Nat) : HostPorts where
  op := BitVec.ofNat 4 w
  reg := BitVec.ofNat 4 (w / 2 ^ 4)
  field := BitVec.ofNat 4 (w / 2 ^ 8)
  addr := BitVec.ofNat 4 (w / 2 ^ 12)
  word := BitVec.ofNat 16 (w / 2 ^ 16)
  cmd := BitVec.ofNat 16 (w / 2 ^ 32)
  val := { bits := BitVec.ofNat 16 (w / 2 ^ 48), codes := BitVec.ofNat 11 (w / 2 ^ 64) }
  fval := BitVec.ofNat 11 (w / 2 ^ 75)

/-- The same layout, built. -/
def HostPorts.toNumber (p : HostPorts) : Nat :=
  p.op.toNat + 2 ^ 4 * p.reg.toNat + 2 ^ 8 * p.field.toNat + 2 ^ 12 * p.addr.toNat + 2 ^ 16 * p.word.toNat
    + 2 ^ 32 * p.cmd.toNat + 2 ^ 48 * p.val.bits.toNat + 2 ^ 64 * p.val.codes.toNat + 2 ^ 75 * p.fval.toNat

/-- How many bits a host request has, in whole bytes. -/
def hostRequestBits : Nat := 88

/-- The request a table word stands for: 16 bits are a wire word (format WIRE16), any other length is a host request
whose bits above the given ones are zero (format HOST_OP4). -/
def requestOfTableWord (nbits w : Nat) : Request :=
  if nbits = 16 then .wire (BitVec.ofNat 16 w) else .host (HostPorts.ofNumber w)

/-- The instruction the decoder reads from a table word; none where it rejects. -/
def decodeTableWord (nbits w : Nat) : Option Instr :=
  match decodeRequest (requestOfTableWord nbits w) with
  | .ok i => some i
  | .error _ => none

/-! ## The encoder -/

/-- The wire word of a command word as a number: the parts of R50 occupy disjoint bits, "so `|` may be read as `+`"
(spec/41_framer.md R92). -/
def encodeCmd (c : CmdWord) : Word :=
  BitVec.ofNat 16 (2 ^ 15 * c.kind.bit + 2 ^ 11 * c.address.toNat + c.payload.toNat)

/-- The code of a member of `comm_option` (spec/10_state.md R12). -/
def CommOption.code : CommOption → BitVec 11
  | .diode => 0#11
  | .active => 1#11

/-- The code of a member of `pwm_mode` (R12). -/
def PwmMode.code : PwmMode → BitVec 11
  | .six => 0#11
  | .three => 1#11
  | .one => 2#11

/-- Where the two mandatory entries stand in REGTABLE (log entry 1). -/
def gateDriveControlIdx : RegIdx := 0#4
def warningAndWatchdogIdx : RegIdx := 1#4

/-- The operation a named instance is: `WITH_FIELD` with the register and the field index fixed (spec/40_codec.md R75 to
R77). Every other operation is itself. -/
def Instr.coreForm : Instr → Instr
  | .withCommOption v x => .withField gateDriveControlIdx v 0#4 x.code
  | .withPwmMode v x => .withField gateDriveControlIdx v 1#4 x.code
  | .withWwFlag v j b => .withField warningAndWatchdogIdx v j (b.setWidth 11)
  | i => i

/-- Idle host ports with an op code. -/
def HostPorts.blank (op : HostOp) : HostPorts where
  op := op.code
  reg := 0#4
  field := 0#4
  addr := 0#4
  word := 0#16
  cmd := 0#16
  val := { bits := 0#16, codes := 0#11 }
  fval := 0#11

/-- The request that presents a `WITH_FIELD`. -/
def withFieldPorts (r : RegIdx) (v : ValPort) (k : FieldIdx) (x : BitVec 11) : HostPorts :=
  { HostPorts.blank .withField with reg := r, val := v, field := k, fval := x }

/-- The request that presents an instruction. -/
def encode : Instr → Request
  | .rd a => .wire (encodeCmd { kind := .read, address := a, payload := 0#11 })
  | .wr a d => .wire (encodeCmd { kind := .write, address := a, payload := d })
  | .address r => .host { HostPorts.blank .address with reg := r }
  | .decode r raw => .host { HostPorts.blank .decode with reg := r, word := raw }
  | .encode r v => .host { HostPorts.blank .encode with reg := r, val := v }
  | .getField r v k => .host { HostPorts.blank .getField with reg := r, val := v, field := k }
  | .withField r v k x => .host (withFieldPorts r v k x)
  | .makeRead a => .host { HostPorts.blank .makeRead with addr := a }
  | .makeWrite a p => .host { HostPorts.blank .makeWrite with addr := a, word := p }
  | .toWire c => .host { HostPorts.blank .toWire with cmd := encodeCmd c }
  | .fromWire raw => .host { HostPorts.blank .fromWire with word := raw }
  | .execute c => .host { HostPorts.blank .execute with cmd := encodeCmd c }
  | .read r => .host { HostPorts.blank .read with reg := r }
  | .write r v => .host { HostPorts.blank .write with reg := r, val := v }
  | .modify r => .host { HostPorts.blank .modify with reg := r }
  | .modifyReread r => .host { HostPorts.blank .modifyReread with reg := r }
  | .reservedE => .host (HostPorts.blank .reservedE)
  | .reservedF => .host (HostPorts.blank .reservedF)
  | .withCommOption v x => .host (withFieldPorts gateDriveControlIdx v 0#4 x.code)
  | .withPwmMode v x => .host (withFieldPorts gateDriveControlIdx v 1#4 x.code)
  | .withWwFlag v j b => .host (withFieldPorts warningAndWatchdogIdx v j (b.setWidth 11))

/-- A request as a table word: how many bits, and the bits as one number. -/
def Request.tableWord : Request → Nat × Nat
  | .wire w => (16, w.toNat)
  | .host p => (hostRequestBits, p.toNumber)

end Sys2Proof
end

