-- ==== Sys2Proof/Machine/Table.lean ====
section
/-! DEFINITION. The register descriptor table and the parameters: the two mandatory entries (spec/10_state.md R12, R13), the
checks of R10, the delay counts of spec/00_scope.md R5 and the default build. -/

namespace Sys2Proof

/-- `r` holds between every two entries of a list, the earlier one first. -/
def pairwiseB {α : Type} (r : α → α → Bool) : List α → Bool
  | [] => true
  | x :: xs => xs.all (r x) && pairwiseB r xs

/-- The legal codes of a field: every value of `Raw(w)`, the codes of the members of an enumeration (R11, R57). -/
def FieldDesc.allows (f : FieldDesc) (c : Word) : Bool :=
  match f.domain with
  | .raw => decide (c.toNat < 2 ^ f.width)
  | .enumerated ms => ms.any (fun m => m.2 == c.toNat)

/-- The member whose code a value is; none for a raw field and for an undefined pattern (R57). -/
def FieldDesc.memberOf (f : FieldDesc) (c : Word) : Option MemberName :=
  match f.domain with
  | .raw => none
  | .enumerated ms => (ms.find? (fun m => m.2 == c.toNat)).map Prod.fst

/-- An enumeration is "a finite list of named members, each with an integer code in [0, 2^width), no two members sharing
a code" (R11, read with spec/90_conflicts.md C2). -/
def FieldDesc.domainWf (f : FieldDesc) : Bool :=
  match f.domain with
  | .raw => true
  | .enumerated ms =>
    ms.all (fun m => decide (m.2 < 2 ^ f.width)) && pairwiseB (fun m n => m.2 != n.2 && m.1 != n.1) ms

/-- `offset + width <= 11` and `width >= 1` (R10 item c). -/
def FieldDesc.wf (f : FieldDesc) : Bool :=
  decide (1 ≤ f.width) && decide (f.offset + f.width ≤ 11) && f.domainWf

/-- Two fields share no bit (R10 item b). -/
def FieldDesc.disjoint (f g : FieldDesc) : Bool :=
  decide (f.offset + f.width ≤ g.offset) || decide (g.offset + g.width ≤ f.offset)

/-- The invariants of one descriptor (R10 items a to c; item a holds by the type of an address). -/
def RegDesc.wf (R : RegDesc) : Bool :=
  R.fields.all FieldDesc.wf && pairwiseB FieldDesc.disjoint R.fields

/-- `GateDriveControl` at address 0x7 (R12). -/
def gateDriveControl : RegDesc where
  address := 0x7#4
  fields :=
    [ { name := .commOption, offset := 9, width := 1, domain := .enumerated [(.diode, 0), (.active, 1)] },
      { name := .pwmMode, offset := 7, width := 2, domain := .enumerated [(.six, 0), (.three, 1), (.one, 2)] } ]

/-- A flag of `WarningAndWatchdog`: width 1, domain Raw(1) (R13). -/
def wwFlagField (f : FieldName × Nat) : FieldDesc where
  name := f.1
  offset := f.2
  width := 1
  domain := .raw

/-- `WarningAndWatchdog` at address 0x1, its flags from the parameter WW_FLAGS (R13). -/
def warningAndWatchdog (flags : List (FieldName × Nat)) : RegDesc where
  address := 0x1#4
  fields := flags.map wwFlagField

/-- The default of WW_FLAGS (R13, the table under it).
PRESUMED: the spec marks this table as general knowledge, not in its source (G1). Unsafe (log entry 18). -/
def defaultWwFlags : List (FieldName × Nat) :=
  [ (.fault, 10), (.tempFlag4, 8), (.pvddUvfl, 7), (.pvddOvfl, 6), (.vdsStatus, 5),
    (.vchpUvfl, 4), (.tempFlag1, 3), (.tempFlag2, 2), (.tempFlag3, 1), (.otw, 0) ]

/-- REGTABLE: the two entries "mandatory in every REGTABLE", then the further ones (R10; log entry 1). -/
def Params.regTable (p : Params) : List RegDesc :=
  gateDriveControl :: warningAndWatchdog p.wwFlags :: p.extra

/-- The descriptor an index selects. -/
def Params.reg? (p : Params) (r : RegIdx) : Option RegDesc :=
  p.regTable[r.toNat]?

/-- "a model checks when the table is supplied and refuses the table otherwise" (R10 items a to d); WW_FLAGS are ten (R13);
`T_CLK_NS` > 0 and `TERR_W` ≥ 1 (R5).
DESIGN CHOICE: the ten flags also have ten names, where R13 and D9 ask only that the offsets be distinct. Safe: the model
stops on a table with equal names (log entry 25). -/
def Params.wf (p : Params) : Bool :=
  p.regTable.all RegDesc.wf
    && pairwiseB (fun R Q => R.address != Q.address) p.regTable
    && decide (p.wwFlags.length = 10)
    && pairwiseB (fun f g => f.1 != g.1) p.wwFlags
    && decide (0 < p.tClkNs)
    && decide (1 ≤ p.terrW)

/-- `max(1, ceil(t / T_CLK_NS))` (R5, D5). -/
def Params.clocksFor (p : Params) (tNs : Nat) : Nat :=
  max 1 ((tNs + p.tClkNs - 1) / p.tClkNs)

/-- `N_SETUP` (R5). -/
def Params.nSetup (p : Params) : Nat := p.clocksFor p.tCsSetupMinNs

/-- `N_HIGH` (R5). -/
def Params.nHigh (p : Params) : Nat := p.clocksFor p.tCsHighMinNs

/-- The build at reset: the defaults of R5; no further register, `T_CLK_NS` = 100 and `TERR_W` = 8, which R5 leaves open.
DESIGN CHOICE (the last three). Unsafe for a claim that rests on their values (log entry 1). -/
def defaultParams : Params where
  wwFlags := defaultWwFlags
  extra := []
  tCsSetupMinNs := 50
  tCsHighMinNs := 500
  tClkNs := 100
  terrW := 8
  hasModifyReread := false

end Sys2Proof
end

