-- ==== Sys2Proof/Machine/State.lean ====
section
/-! DEFINITION. The state of the block (spec/10_state.md R16), what it shows the outside (spec/00_scope.md R7), what the
outside puts on its pins, the reasons a step can stop, and the state after reset (R25). Plain data throughout. -/

namespace Sys2Proof.Machine

/-- `S.PHASE` (R16): `IDLE`=0, `SETUP`=1, `SEND`=2, `RECV`=3, `RELEASE`=4, `HOLD`=5. -/
inductive Phase where
  | idle | setup | send | recv | release | hold
  deriving DecidableEq, Repr

/-- `S.STAGE` (R16): `NONE`=0, `FRAME1`=1, `FRAME2`=2, `FRAME3`=3. -/
inductive Stage where
  | none | frame1 | frame2 | frame3
  deriving DecidableEq, Repr

/-- A register value (R14): the snapshot and one value per field in descriptor order, an enumerated value by its
member's code, codes being one-to-one with members (R11; log entry 12). -/
structure RegVal where
  bits  : Word
  codes : List Word
  deriving DecidableEq, Repr

/-- `FramingError`, one variant (spec/60_exceptions.md R121). -/
inductive FramingError where
  | payloadTooWide
  deriving DecidableEq, Repr

/-- `DecodeError`, one variant; `field` is the descriptor index, `value` the extracted integer (R122). -/
inductive DecodeError where
  | invalidFieldValue (field : Nat) (value : Word)
  deriving DecidableEq, Repr

/-- `DriverError`, three variants (R123); the transport's code is opaque (R124). -/
inductive DriverError where
  | framing (e : FramingError)
  | transport (e : Nat)
  | decode (e : DecodeError)
  deriving DecidableEq, Repr

/-- The result of an operation: `Ok(v)` in the shape of its result type, or `Err(e)` with its error type
(spec/30_encoding.md R60, R61; R120 to R124). -/
inductive Response where
  | okAddress (a : Addr)
  | okValue (v : RegVal)
  | okWord (w : Word)
  | okField (c : Word)
  | okCommand (c : CmdWord)
  | errFraming (e : FramingError)
  | errDecode (e : DecodeError)
  | errTransport (e : Nat)
  | errDriver (e : DriverError)
  deriving DecidableEq, Repr

/-- An answer of the transport to `Send` (spec/00_scope.md R9). -/
inductive SendAns where
  | ok
  | err (e : Nat)
  deriving DecidableEq, Repr

/-- An answer of the transport to `Receive` (R9). -/
inductive RecvAns where
  | ok (w : Word)
  | err (e : Nat)
  deriving DecidableEq, Repr

/-- A boundary event (R7 item b, R9). `rst` is the model's mark of a reset, which lifts chip-select outside a frame's own
sequence (spec/70_reset_and_hazards.md R141; log entry 5). -/
inductive Event where
  | csLow
  | delay (tminNs : Nat)
  | send (w : Word) (a : SendAns)
  | receive (a : RecvAns)
  | csHigh
  | rst
  deriving DecidableEq, Repr

/-- The input pins in one clock: reset (R140), the request ports (spec/30_encoding.md R64; none is `req_valid` = 0), the
transport's answers (spec/60_exceptions.md R130) and the callback's answer `mod_res` (R64). -/
structure Pins where
  rst    : Bool
  req    : Option Request
  txDone : Bool
  txErr  : Bool
  rxDone : Bool
  rxErr  : Bool
  rxWord : Word
  tErr   : Nat
  modRes : ValPort
  deriving DecidableEq, Repr

/-- The block, its pending inputs, its outputs of this clock and its trace. -/
structure State where
  /-- The build: parameters and REGTABLE (R5, R10). No step writes it (R23). -/
  cfg     : Params
  /-- `S.PHASE`. -/
  phase   : Phase
  /-- `S.CS_N`: true is 1, deasserted. -/
  csN     : Bool
  /-- `S.CNT`. -/
  cnt     : Nat
  /-- `S.OPV`. -/
  opv     : Bool
  /-- `S.OP`. -/
  op      : HostOp
  /-- `S.REG`. -/
  reg     : RegIdx
  /-- `S.STAGE`. -/
  stage   : Stage
  /-- `S.CMD`. -/
  cmd     : Word
  /-- `S.RPLY`. -/
  rply    : Word
  /-- `S.ERRF`. -/
  errf    : Bool
  /-- `S.TERR`. -/
  terr    : Nat
  /-- `S.VAL`. -/
  val     : RegVal
  /-- The pins of the coming clocks, the next one first; beyond the list the pins are quiet (log entry 3). -/
  pins    : List Pins
  /-- The response to a pure operation presented in this clock (log entry 4). -/
  rspPure : Option Response
  /-- The response to a driver operation presented in this clock (log entry 4). -/
  rspDrv  : Option Response
  /-- The boundary events so far, oldest first (log entry 5). -/
  trace   : List Event
  deriving DecidableEq, Repr

/-- What stops the machine as a fault. -/
inductive Fault where
  /-- Raised by the operation layer (`nextFrame`, `frameDone`) when `S.OPV` = 1 and the latches name no frame of an
  operation. No run from reset gets there (R21, R108; the invariant of Safety.lean). Safe (log entry 21). -/
  | corruptSequencer
  deriving DecidableEq, Repr

/-- What the model gives no meaning, by name. All are safe: the model stops where the spec says an input is outside the
contract and that a model refuses it (log entry 7). -/
inductive Refusal where
  /-- An arm of `exec` without a meaning; no arm uses it. Safe. -/
  | notModelled (mnemonic : String)
  /-- `clock`: parameters or a table that break R10 or R5. Safe (log entry 22). -/
  | badParameters
  /-- `step`, TO_WIRE, EXECUTE: a read command word with a non-zero payload (R15, R59 item b, U6). Safe. -/
  | unconstructibleCommand
  /-- Typed operations: an index with no entry in REGTABLE (R59 item d). Safe. -/
  | noSuchRegister
  /-- GET_FIELD, WITH_FIELD, WITH_WW_FLAG: "an index k >= n is refused" (R73). Safe. -/
  | noSuchField
  /-- Operands and `mod_res`: an enumerated code with no member (R64, U7). Safe. -/
  | noSuchMember
  /-- Operands and `mod_res`: a code wider than its field, which no port carries (D18). Safe. -/
  | operandTooWide
  /-- The sequencer: a `t_err` wider than `TERR_W`, which no port carries (R130). Safe (log entry 17). -/
  | transportErrorTooWide
  deriving DecidableEq, Repr

/-- The state after reset (R25, spec/70_reset_and_hazards.md R140). `S.OP`, `S.REG`, `S.CMD`, `S.RPLY`, `S.TERR`,
`S.VAL` are "unspecified" there; zero is the model's.
DESIGN CHOICE (those six). Unsafe (log entry 2). -/
def State.reset : State where
  cfg := defaultParams
  phase := .hold
  csN := true
  cnt := defaultParams.nHigh
  opv := false
  op := .address
  reg := 0#4
  stage := .none
  cmd := 0#16
  rply := 0#16
  errf := false
  terr := 0
  val := { bits := 0#16, codes := [0#16, 0#16] }
  pins := []
  rspPure := none
  rspDrv := none
  trace := []

end Sys2Proof.Machine
end

