-- ==== Sys2Proof/Machine/Flags.lean ====
section
/-! DEFINITION. The outputs that are functions of the state: the status outputs of spec/10_state.md R19, the pins of
spec/60_exceptions.md R130, the status codes and response ports of spec/30_encoding.md R61, R64, and the codes of
the phases and stages (R16). The block has no condition codes (R19). -/

namespace Sys2Proof.Machine

/-- The code of a phase (R16). -/
def Phase.code : Phase → BitVec 3
  | .idle => 0#3 | .setup => 1#3 | .send => 2#3 | .recv => 3#3 | .release => 4#3 | .hold => 5#3

/-- The code of a stage (R16). -/
def Stage.code : Stage → BitVec 2
  | .none => 0#2 | .frame1 => 1#2 | .frame2 => 2#2 | .frame3 => 3#2

/-- `busy` "is 1 exactly when `S.OPV = 1` or `S.PHASE != IDLE`" (R19). -/
def State.busy (s : State) : Bool := s.opv || s.phase != .idle

/-- `req_ready = not busy` (R64). -/
def State.reqReady (s : State) : Bool := !s.busy

/-- The pin `cs_n` "always shows `S.CS_N`" (R17). -/
def State.csPin (s : State) : Bool := s.csN

/-- `tx_req` is held through `SEND` (spec/42_driver.md R102, R103; R130). -/
def State.txReq (s : State) : Bool := s.phase == .send

/-- `tx_word` while `tx_req` = 1 (R130). -/
def State.txWord (s : State) : Word := s.cmd

/-- `rx_req` is held through `RECV` (R103, R104; R130). -/
def State.rxReq (s : State) : Bool := s.phase == .recv

/-- The code of a driver error: "that of `x`" (spec/60_exceptions.md R120). -/
def DriverError.status : DriverError → BitVec 2
  | .framing _ => 1#2
  | .transport _ => 2#2
  | .decode _ => 3#2

/-- `rsp_status`: `OK` = 0, `FRAMING` = 1, `TRANSPORT` = 2, `DECODE` = 3 (R61). -/
def Response.status : Response → BitVec 2
  | .okAddress _ | .okValue _ | .okWord _ | .okField _ | .okCommand _ => 0#2
  | .errFraming _ => 1#2
  | .errTransport _ => 2#2
  | .errDecode _ => 3#2
  | .errDriver e => e.status

/-- The `rsp_*` ports of R64; none marks a member the result's type does not name ("only the members the operation's
result type names are meaningful"). -/
structure RspPorts where
  status   : BitVec 2
  word     : Option Word
  cmd      : Option CmdWord
  val      : Option RegVal
  fval     : Option Word
  errField : Option Nat
  errValue : Option Word
  terr     : Option Nat
  deriving DecidableEq, Repr

/-- No member meaningful but the status. -/
def RspPorts.bare (st : BitVec 2) : RspPorts where
  status := st
  word := none
  cmd := none
  val := none
  fval := none
  errField := none
  errValue := none
  terr := none

/-- A decode error on the ports: the field index and the extracted integer zero-extended to 16 bits (R61, D12). -/
def DecodeError.ports : DecodeError → RspPorts
  | .invalidFieldValue k c => { RspPorts.bare 3#2 with errField := some k, errValue := some c }

/-- A response on the ports (R64). An address goes on `rsp_word`: DESIGN CHOICE, no rule names its port. Safe: no
meaning reads the ports (log entry 16). -/
def Response.ports : Response → RspPorts
  | .okAddress a => { RspPorts.bare 0#2 with word := some (a.setWidth 16) }
  | .okValue v => { RspPorts.bare 0#2 with val := some v }
  | .okWord w => { RspPorts.bare 0#2 with word := some w }
  | .okField c => { RspPorts.bare 0#2 with fval := some c }
  | .okCommand c => { RspPorts.bare 0#2 with cmd := some c }
  | .errFraming _ => RspPorts.bare 1#2
  | .errTransport e => { RspPorts.bare 2#2 with terr := some e }
  | .errDecode e => e.ports
  | .errDriver (.framing _) => RspPorts.bare 1#2
  | .errDriver (.transport e) => { RspPorts.bare 2#2 with terr := some e }
  | .errDriver (.decode e) => e.ports

end Sys2Proof.Machine
end

