-- ==== Sys2Proof/Machine/Operands.lean ====
section
/-! DEFINITION. The operand forms of spec/30_encoding.md R64: a register index, a field index, a register value and a field
code as the ports carry them, each resolved against the descriptor table. What is outside the contract is refused by name
(R56, R64; spec/40_codec.md R73; log entry 7). -/

namespace Sys2Proof.Machine

/-- What a meaning answers. -/
abbrev Out := Host.Outcome State Fault Refusal

/-- Go on with an operand, or stop where it was refused. -/
def onOk {α : Type} (x : Except Refusal α) (k : α → Out) : Out :=
  match x with
  | .ok a => k a
  | .error r => .refused r

/-- The operand `R`: the descriptor at an index of REGTABLE. -/
def regOperand (p : Params) (r : RegIdx) : Except Refusal RegDesc :=
  match p.reg? r with
  | some R => .ok R
  | none => .error .noSuchRegister

/-- The operand `k` with `0 <= k < n` (R73). -/
def fieldOperand (R : RegDesc) (k : FieldIdx) : Except Refusal FieldDesc :=
  match R.fields[k.toNat]? with
  | some f => .ok f
  | none => .error .noSuchField

/-- The operand `x`: "for `Raw(w)` the operand is `w` bits wide, for an enumeration it is a member" (spec/40_codec.md
R74, D18). -/
def codeOperand (f : FieldDesc) (x : BitVec 11) : Except Refusal Word :=
  if x.toNat < 2 ^ f.width then
    if f.allows (x.setWidth 16) then .ok (x.setWidth 16) else .error .noSuchMember
  else .error .operandTooWide

/-- The sum of the field widths: how many code bits a register value has on a port (R64; spec/10_state.md R16). -/
def codesWidth : List FieldDesc → Nat
  | [] => 0
  | f :: fs => f.width + codesWidth fs

/-- The codes packed on a port, field 0 lowest (R64; log entry 11). -/
def unpackCodes : List FieldDesc → BitVec 11 → List Word
  | [], _ => []
  | f :: fs, b => BitVec.ofNat 16 (b.toNat % 2 ^ f.width) :: unpackCodes fs (b >>> f.width)

/-- The same packing, built. -/
def packCodes : List FieldDesc → List Word → BitVec 11
  | f :: fs, c :: cs => (c.setWidth 11) ||| (packCodes fs cs <<< f.width)
  | _, _ => 0#11

/-- Each field value is in its field's domain, and there is one per field (spec/10_state.md R14). -/
def validCodes : List FieldDesc → List Word → Bool
  | [], [] => true
  | f :: fs, c :: cs => f.allows c && validCodes fs cs
  | _, _ => false

/-- `v` is a register value of `R` (R14). -/
def RegVal.validFor (v : RegVal) (R : RegDesc) : Bool := validCodes R.fields v.codes

/-- The operand `v`, a register value of `R`, from its port. "An enumerated code on `req_val`, `req_fval` or `mod_res`
that belongs to no member is outside the contract and is refused" (R64, U7).
DESIGN CHOICE: any snapshot is taken, also one that holds an undefined pattern, which neither DECODE nor a setter leaves
in a register value (R14, D17) and of which R64 says nothing. Unsafe (log entry 26). -/
def valOperand (R : RegDesc) (p : ValPort) : Except Refusal RegVal :=
  if p.codes.toNat < 2 ^ codesWidth R.fields then
    if validCodes R.fields (unpackCodes R.fields p.codes) then
      .ok { bits := p.bits, codes := unpackCodes R.fields p.codes }
    else .error .noSuchMember
  else .error .operandTooWide

/-- A register value on a port. -/
def RegVal.toPort (v : RegVal) (R : RegDesc) : ValPort where
  bits := v.bits
  codes := packCodes R.fields v.codes

/-- A transport error on `t_err[TERR_W-1:0]` (spec/60_exceptions.md R130, R124; log entry 17). -/
def errOperand (p : Params) (e : Nat) : Except Refusal Nat :=
  if e < 2 ^ p.terrW then .ok e else .error .transportErrorTooWide

end Sys2Proof.Machine
end

