-- ==== Sys2Proof/Machine/Ops.lean ====
section
/-! DEFINITION. The operations the meanings share: field unpack and pack (spec/30_encoding.md R56), the codec's two
functions (spec/40_codec.md R71, R72), the framer's (spec/41_framer.md R90 to R93), and what the sequencer and the
operation layer do to the state (spec/42_driver.md R101 to R108). The entry into an error is `latchTransportError`
inside a frame and `endOp` at the end of an operation (spec/60_exceptions.md R126); the return from one is nothing at
all (R127). -/

namespace Sys2Proof.Machine

/-! ## Fields of a word -/

/-- `mask(w) = 2^w - 1` (spec/00_scope.md R8). -/
def mask (w : Nat) : Word := BitVec.ofNat 16 (2 ^ w - 1)

/-- `extract(raw, o, w) = (raw & (m << o)) >> o` (R56). -/
def extractField (raw : Word) (o w : Nat) : Word := (raw &&& (mask w <<< o)) >>> o

/-- `insert(word, o, w, c) = (word & ~(m << o)) | (c << o)` (R56). -/
def insertField (word : Word) (o w : Nat) (c : Word) : Word := (word &&& ~~~(mask w <<< o)) ||| (c <<< o)

/-! ## The codec -/

/-- The loop of `DECODE` from field `k` on: descriptor order, the first undefined pattern ends it (R71, D7). -/
def decodeFields (raw : Word) : Nat → List FieldDesc → Except DecodeError (List Word)
  | _, [] => .ok []
  | k, f :: fs =>
    let c := extractField raw f.offset f.width
    if f.allows c then (decodeFields raw (k + 1) fs).map (c :: ·)
    else .error (.invalidFieldValue k c)

/-- `DECODE(R, raw)` (R71). -/
def decodeReg (R : RegDesc) (raw : Word) : Except DecodeError RegVal :=
  (decodeFields raw 0 R.fields).map (fun cs => { bits := raw, codes := cs })

/-- The loop of `ENCODE` (R72). -/
def encodeFields : List FieldDesc → List Word → Word → Word
  | f :: fs, c :: cs, word => encodeFields fs cs (insertField word f.offset f.width c)
  | _, _, word => word

/-- `ENCODE(v)` for `v` of type `R` (R72). -/
def encodeReg (R : RegDesc) (v : RegVal) : Word := encodeFields R.fields v.codes v.bits

/-- `v' = v ; v'.f[k] = x` (R74). -/
def RegVal.setCode (v : RegVal) (k : Nat) (x : Word) : RegVal := { v with codes := v.codes.set k x }

/-! ## The framer -/

/-- `MAKE_READ a` (R90). -/
def makeRead (a : Addr) : CmdWord := { kind := .read, address := a, payload := 0#11 }

/-- `MAKE_WRITE(a, p)` (R91). -/
def makeWrite (a : Addr) (p : Word) : Except FramingError CmdWord :=
  if p.extractLsb' 11 5 != 0#5 then .error .payloadTooWide
  else .ok { kind := .write, address := a, payload := p.extractLsb' 0 11 }

/-- The bit `k` of R92: 1 for a read. -/
def kindBit : Kind → Word
  | .read => 1#16
  | .write => 0#16

/-- `TO_WIRE(c)`: `(k << 15) | (c.address << 11) | c.payload` (R92). -/
def toWire (c : CmdWord) : Word :=
  (kindBit c.kind <<< 15) ||| (c.address.setWidth 16 <<< 11) ||| c.payload.setWidth 16

/-- `FROM_WIRE raw`: the identity (R93). -/
def fromWire (raw : Word) : Word := raw

/-! ## The sequencer and the operation layer -/

/-- A boundary event happens. -/
def State.emit (s : State) (e : Event) : State := { s with trace := s.trace ++ [e] }

/-- The response strobes last one clock (spec/30_encoding.md R64). -/
def State.clearStrobes (s : State) : State := { s with rspPure := none, rspDrv := none }

/-- The pins of this clock are used up. -/
def State.dropPins (s : State) : State := { s with pins := s.pins.tail }

/-- A pure operation is answered "in the same clock" and touches no element of R16 (R60, R64). -/
def respondPure (r : Response) (s : State) : Out := .next { s with rspPure := some r }

/-- Frame start (R101) as frame `st` of the operation (R108). -/
def startFrame (st : Stage) (c : CmdWord) (s : State) : State :=
  { s with
    stage := st
    cmd := toWire c
    errf := false
    csN := false
    cnt := s.cfg.nSetup
    phase := .setup
    trace := s.trace ++ [.csLow] }

/-- Acceptance of a driver operation: "`S.OPV <- 1`, `S.OP` and `S.REG` are loaded" and its first frame starts (R108,
R101). -/
def acceptDriver (op : HostOp) (r : RegIdx) (c : CmdWord) (s : State) : State :=
  startFrame .frame1 c { s with opv := true, op := op, reg := r }

/-- The operation's pseudocode ends, by `return` or `raise`: "`S.OPV <- 0`, `S.STAGE <- NONE`, and the result is
presented once" (R108). The one entry into every error an operation returns (R126). -/
def endOp (r : Response) (s : State) : State :=
  { s with opv := false, stage := .none, rspDrv := some r }

/-- A transport error inside a frame: "`S.TERR <- e`; `S.ERRF <- 1`; `S.PHASE <- RELEASE`" (R103, R104, R126). -/
def latchTransportError (e : Nat) (s : State) : State :=
  { s with terr := e, errf := true, phase := .release }

/-- `RELEASE` (R106). -/
def releaseFrame (s : State) : State :=
  { s with csN := true, cnt := s.cfg.nHigh, phase := .hold, trace := s.trace ++ [.csHigh] }

/-- At an edge with `rst` = 1 "every element of rule R16 takes the value in the table of rule R25"; the parameters keep
theirs, no result is reported (spec/70_reset_and_hazards.md R140, R141). -/
def resetState (s : State) : State :=
  { State.reset with
    cfg := s.cfg
    cnt := s.cfg.nHigh
    pins := s.pins
    trace := s.trace ++ [.rst] }

/-- Whether a request selects a driver operation (spec/30_encoding.md R60), its operands aside. -/
def Request.asksDriver : Request → Bool
  | .wire _ => true
  | .host p =>
    match HostOp.ofCode p.op with
    | .execute | .read | .write | .modify | .modifyReread => true
    | .address | .decode | .encode | .getField | .withField | .makeRead | .makeWrite | .toWire | .fromWire
    | .reservedE | .reservedF => false

/-- Whether a request selects the optional operation. -/
def Request.asksReread : Request → Bool
  | .wire _ => false
  | .host p => HostOp.ofCode p.op == .modifyReread

/-! ## Placing a request, for the interface that loads one instruction (log entry 19) -/

/-- Pins on which nothing happens. -/
def Pins.quiet : Pins where
  rst := false
  req := none
  txDone := false
  txErr := false
  rxDone := false
  rxErr := false
  rxWord := 0#16
  tErr := 0
  modRes := { bits := 0#16, codes := 0#11 }

/-- The request stands on the pins of the next clock, `rst` low. -/
def presentRequest (q : Request) (s : State) : State :=
  match s.pins with
  | [] => { s with pins := [{ Pins.quiet with req := some q }] }
  | p :: ps => { s with pins := { p with rst := false, req := some q } :: ps }

/-- The block ready to accept a driver operation: `IDLE`, chip-select high, nothing in flight. -/
def makeReady (s : State) : State :=
  { s with phase := .idle, csN := true, cnt := 0, opv := false, stage := .none }

/-- All that the very next step needs to run the request: the request on the pins; for a driver operation a ready
block; for the optional operation a build that has it. -/
def placeRequest (q : Request) (s : State) : State :=
  let s1 := if Request.asksDriver q then makeReady s else s
  let s2 := if Request.asksReread q then { s1 with cfg := { s1.cfg with hasModifyReread := true } } else s1
  presentRequest q s2

end Sys2Proof.Machine
end

