-- ==== Sys2Proof/Machine/Codec.lean ====
section
/-! DEFINITION. The meanings of the codec's operations (spec/40_codec.md R70 to R77), one definition each. All are pure:
they answer in the same clock and touch no element of spec/10_state.md R16 (spec/30_encoding.md R60). -/

namespace Sys2Proof.Machine

/-- `ADDRESS R` (R70). -/
def execAddress (r : RegIdx) (s : State) : Out :=
  onOk (regOperand s.cfg r) fun R => respondPure (.okAddress R.address) s

/-- `DECODE R, raw` (R71). -/
def execDecode (r : RegIdx) (raw : Word) (s : State) : Out :=
  onOk (regOperand s.cfg r) fun R =>
    match decodeReg R raw with
    | .ok v => respondPure (.okValue v) s
    | .error e => respondPure (.errDecode e) s

/-- `ENCODE v` (R72). -/
def execEncode (r : RegIdx) (v : ValPort) (s : State) : Out :=
  onOk (regOperand s.cfg r) fun R =>
    onOk (valOperand R v) fun v => respondPure (.okWord (encodeReg R v)) s

/-- `GET_FIELD v, k` (R73): the stored field value. -/
def execGetField (r : RegIdx) (v : ValPort) (k : FieldIdx) (s : State) : Out :=
  onOk (regOperand s.cfg r) fun R =>
    onOk (valOperand R v) fun v =>
      match v.codes[k.toNat]? with
      | some c => respondPure (.okField c) s
      | none => .refused .noSuchField

/-- `WITH_FIELD v, k, x` over a descriptor (R74): the snapshot is unchanged, `f[k] = x`. -/
def setField (R : RegDesc) (v : ValPort) (k : FieldIdx) (x : BitVec 11) (s : State) : Out :=
  onOk (valOperand R v) fun v =>
    onOk (fieldOperand R k) fun f =>
      onOk (codeOperand f x) fun c => respondPure (.okValue (v.setCode k.toNat c)) s

/-- `WITH_FIELD v, k, x` (R74). -/
def execWithField (r : RegIdx) (v : ValPort) (k : FieldIdx) (x : BitVec 11) (s : State) : Out :=
  onOk (regOperand s.cfg r) fun R => setField R v k x s

/-- `WITH_COMM_OPTION v, x` (R75): field 0 of `GateDriveControl`. -/
def execWithCommOption (v : ValPort) (x : CommOption) (s : State) : Out :=
  setField gateDriveControl v 0#4 x.code s

/-- `WITH_PWM_MODE v, x` (R76): field 1 of `GateDriveControl`. -/
def execWithPwmMode (v : ValPort) (x : PwmMode) (s : State) : Out :=
  setField gateDriveControl v 1#4 x.code s

/-- `WITH_WW_FLAG v, j, b` (R77): flag `j` of `WarningAndWatchdog`. -/
def execWithWwFlag (v : ValPort) (j : FieldIdx) (b : BitVec 1) (s : State) : Out :=
  setField (warningAndWatchdog s.cfg.wwFlags) v j (b.setWidth 11) s

end Sys2Proof.Machine
end

