-- ==== Sys2Proof/Machine/Driver.lean ====
section
/-! DEFINITION. The meanings of the driver's operations (spec/42_driver.md R100, R110 to R113), of the two wire words
(spec/30_encoding.md R52, spec/20_memory.md R43) and of the reserved codes (R59, R60), one definition each. A driver
operation's meaning is what happens in the clock that presents it: not accepted while `busy` = 1, "and has no
effect"; else accepted, its first frame started (R108, R101). The clocks that follow are `tick` (Sequencer.lean), and
the whole of an operation, clock after clock, is stated in the obligations. -/

namespace Sys2Proof.Machine

/-- The block accepts a driver operation only when `busy` = 0 (R108, D19). -/
def whenReady (s : State) (accept : Out) : Out :=
  if s.busy then .next s else accept

/-- EXECUTE of a command word; `S.REG` is left alone, the operation being untyped (R16, R100; log entry 15). -/
def acceptExecute (c : CmdWord) (s : State) : Out :=
  whenReady s <|
    if c.constructible then .next (acceptDriver .execute s.reg c s) else .refused .unconstructibleCommand

/-- `RD a`: the frame of `MAKE_READ a` (R52; R43 `MemRead(addr, 1)`; log entry 8). -/
def execRd (a : Addr) (s : State) : Out := acceptExecute (makeRead a) s

/-- `WR a, d`: the frame of a write command (R52; R43 `MemWrite(addr, 1, v)`; log entry 8). -/
def execWr (a : Addr) (d : Payload) (s : State) : Out :=
  acceptExecute { kind := .write, address := a, payload := d } s

/-- `EXECUTE c` (R100). -/
def execExecute (c : CmdWord) (s : State) : Out := acceptExecute c s

/-- The read frame every typed read begins with: `MAKE_READ(ADDRESS(R))` (R110). -/
def acceptRead (op : HostOp) (r : RegIdx) (s : State) : Out :=
  whenReady s <| onOk (regOperand s.cfg r) fun R => .next (acceptDriver op r (makeRead R.address) s)

/-- `READ R` (R110). -/
def execRead (r : RegIdx) (s : State) : Out := acceptRead .read r s

/-- `WRITE R, v` (R111). A framing failure "completes in the accepting clock with `S.OPV` never set and no phase left
`IDLE`" (R108). -/
def execWrite (r : RegIdx) (v : ValPort) (s : State) : Out :=
  whenReady s <|
    onOk (regOperand s.cfg r) fun R =>
      onOk (valOperand R v) fun v =>
        match makeWrite R.address (encodeReg R v) with
        | .ok c => .next (acceptDriver .write r c s)
        | .error e => .next { s with rspDrv := some (.errDriver (.framing e)) }

/-- `MODIFY R, f` (R112): it begins with `READ(R)`. -/
def execModify (r : RegIdx) (s : State) : Out := acceptRead .modify r s

/-- `MODIFY_REREAD R, f` (R113). With `HAS_MODIFY_REREAD` = 0 the code is turned away: "no state change, no bus
activity, no response" (U9; log entry 6). -/
def execModifyReread (r : RegIdx) (s : State) : Out :=
  if s.cfg.hasModifyReread then acceptRead .modifyReread r s else .next s

/-- Host code 0xE: "no state changes, no bus activity, no `rsp_valid`" (R60, R59 item g; log entry 6). -/
def execReservedE (s : State) : Out := .next s

/-- Host code 0xF: as 0xE (R60, R59 item g; log entry 6). -/
def execReservedF (s : State) : Out := .next s

end Sys2Proof.Machine
end

