-- ==== Sys2Proof/Machine/Framer.lean ====
section
/-! DEFINITION. The meanings of the framer's operations (spec/41_framer.md R90 to R93), one definition each. All are pure
(spec/30_encoding.md R60). -/

namespace Sys2Proof.Machine

/-- `MAKE_READ a` (R90). -/
def execMakeRead (a : Addr) (s : State) : Out := respondPure (.okCommand (makeRead a)) s

/-- `MAKE_WRITE a, p` (R91). -/
def execMakeWrite (a : Addr) (p : Word) (s : State) : Out :=
  match makeWrite a p with
  | .ok c => respondPure (.okCommand c) s
  | .error e => respondPure (.errFraming e) s

/-- `TO_WIRE c` (R92); given only constructible command words (D22). -/
def execToWire (c : CmdWord) (s : State) : Out :=
  if c.constructible then respondPure (.okWord (toWire c)) s else .refused .unconstructibleCommand

/-- `FROM_WIRE raw` (R93). -/
def execFromWire (raw : Word) (s : State) : Out := respondPure (.okWord (fromWire raw)) s

end Sys2Proof.Machine
end

