-- ==== Sys2Proof/Machine/Dispatch.lean ====
section
/-! DEFINITION. One arm per instruction: what the block does with a request in the clock that presents it. -/

namespace Sys2Proof.Machine

def exec (i : Instr) (s : State) : Host.Outcome State Fault Refusal :=
  match i with
  | .rd a => Sys2Proof.Machine.execRd a s
  | .wr a d => Sys2Proof.Machine.execWr a d s
  | .address r => Sys2Proof.Machine.execAddress r s
  | .decode r raw => Sys2Proof.Machine.execDecode r raw s
  | .encode r v => Sys2Proof.Machine.execEncode r v s
  | .getField r v k => Sys2Proof.Machine.execGetField r v k s
  | .withField r v k x => Sys2Proof.Machine.execWithField r v k x s
  | .makeRead a => Sys2Proof.Machine.execMakeRead a s
  | .makeWrite a p => Sys2Proof.Machine.execMakeWrite a p s
  | .toWire c => Sys2Proof.Machine.execToWire c s
  | .fromWire raw => Sys2Proof.Machine.execFromWire raw s
  | .execute c => Sys2Proof.Machine.execExecute c s
  | .read r => Sys2Proof.Machine.execRead r s
  | .write r v => Sys2Proof.Machine.execWrite r v s
  | .modify r => Sys2Proof.Machine.execModify r s
  | .modifyReread r => Sys2Proof.Machine.execModifyReread r s
  | .reservedE => Sys2Proof.Machine.execReservedE s
  | .reservedF => Sys2Proof.Machine.execReservedF s
  | .withCommOption v x => Sys2Proof.Machine.execWithCommOption v x s
  | .withPwmMode v x => Sys2Proof.Machine.execWithPwmMode v x s
  | .withWwFlag v j b => Sys2Proof.Machine.execWithWwFlag v j b s

end Sys2Proof.Machine
end

