-- ==== Sys2Proof/Machine/Sequencer.lean ====
section
/-! DEFINITION. One transition of the sequencer (spec/42_driver.md R101 to R107) with the operation layer that starts its
frames and takes their results (R108, R110 to R113). -/

namespace Sys2Proof.Machine

/-- The command of the operation's next frame, the block being in `IDLE` with an operation in flight (R101, R108): the
write frame of `MODIFY` and `MODIFY_REREAD` from `S.VAL` (R112), then the last read frame of `MODIFY_REREAD` (R113). A
write that fails in framing ends the operation, no frame started (R112; log entry 13). -/
def nextFrame (s : State) : Out :=
  match regOperand s.cfg s.reg with
  | .error _ => .fault .corruptSequencer
  | .ok R =>
    match s.op, s.stage with
    | .modify, .frame1 | .modifyReread, .frame1 =>
      match makeWrite R.address (encodeReg R s.val) with
      | .ok c => .next (startFrame .frame2 c s)
      | .error e => .next (endOp (.errDriver (.framing e)) s)
    | .modifyReread, .frame2 => .next (startFrame .frame3 (makeRead R.address) s)
    | _, _ => .fault .corruptSequencer

/-- The end of an operation whose last step decodes the reply (R110, R112, R113). -/
def endWithDecode (R : RegDesc) (s : State) : State :=
  match decodeReg R (fromWire s.rply) with
  | .ok v => endOp (.okValue v) s
  | .error e => endOp (.errDriver (.decode e)) s

/-- The end of the read frame of `MODIFY` and `MODIFY_REREAD`: decode, apply `f` by the callback, `S.VAL <- v1`; an
undefined pattern ends the operation with `f` not applied (R112, R64). -/
def applyModify (mr : ValPort) (R : RegDesc) (s : State) : Out :=
  match decodeReg R (fromWire s.rply) with
  | .ok _ => onOk (valOperand R mr) fun v1 => .next { s with val := v1 }
  | .error e => .next (endOp (.errDriver (.decode e)) s)

/-- A frame of a typed operation has ended without a transport error (R110 to R113). -/
def typedFrameDone (mr : ValPort) (R : RegDesc) (s : State) : Out :=
  match s.op, s.stage with
  | .read, .frame1 => .next (endWithDecode R s)
  | .write, .frame1 => .next (endOp (.okWord (fromWire s.rply)) s)
  | .modify, .frame1 => applyModify mr R s
  | .modify, .frame2 => .next (endWithDecode R s)
  | .modifyReread, .frame1 => applyModify mr R s
  | .modifyReread, .frame2 => .next s
  | .modifyReread, .frame3 => .next (endWithDecode R s)
  | _, _ => .fault .corruptSequencer

/-- "the frame's result is handed to the operation layer: `Err(TransportError(S.TERR))` if `S.ERRF = 1`, else
`Ok(S.RPLY)`" (R107). `EXECUTE` returns a bare `TransportError`, the others wrap it (spec/60_exceptions.md R123). -/
def frameDone (mr : ValPort) (s : State) : Out :=
  match s.op with
  | .execute =>
    if s.errf then .next (endOp (.errTransport s.terr) s) else .next (endOp (.okWord (fromWire s.rply)) s)
  | .read | .write | .modify | .modifyReread =>
    if s.errf then .next (endOp (.errDriver (.transport s.terr)) s)
    else
      match regOperand s.cfg s.reg with
      | .error _ => .fault .corruptSequencer
      | .ok R => typedFrameDone mr R s
  | .address | .decode | .encode | .getField | .withField | .makeRead | .makeWrite | .toWire | .fromWire
  | .reservedE | .reservedF => .fault .corruptSequencer

/-- `SETUP` (R102). -/
def tickSetup (s : State) : State :=
  if s.cnt = 0 then ({ s with phase := .send }).emit (.delay s.cfg.tCsSetupMinNs)
  else { s with cnt := s.cnt - 1 }

/-- `SEND` (R103): wait for the answer, then `RECV`, or `RELEASE` on an error. -/
def tickSend (p : Pins) (s : State) : Out :=
  if !p.txDone then .next s
  else if p.txErr then
    onOk (errOperand s.cfg p.tErr) fun e => .next ((latchTransportError e s).emit (.send s.cmd (.err e)))
  else .next (({ s with phase := .recv }).emit (.send s.cmd .ok))

/-- `RECV` (R104): wait for the answer, then `RELEASE`. -/
def tickRecv (p : Pins) (s : State) : Out :=
  if !p.rxDone then .next s
  else if p.rxErr then
    onOk (errOperand s.cfg p.tErr) fun e => .next ((latchTransportError e s).emit (.receive (.err e)))
  else .next (({ s with rply := p.rxWord, phase := .release }).emit (.receive (.ok p.rxWord)))

/-- `HOLD` (R107). The hold that follows a reset belongs to no frame: it reports nothing and is no event. -/
def tickHold (p : Pins) (s : State) : Out :=
  if s.cnt = 0 then
    if s.opv then frameDone p.modRes (({ s with phase := .idle }).emit (.delay s.cfg.tCsHighMinNs))
    else .next { s with phase := .idle }
  else .next { s with cnt := s.cnt - 1 }

/-- One clock of the sequencer, no new request accepted. -/
def tick (p : Pins) (s : State) : Out :=
  match s.phase with
  | .idle => if s.opv then nextFrame s else .next s
  | .setup => .next (tickSetup s)
  | .send => tickSend p s
  | .recv => tickRecv p s
  | .release => .next (releaseFrame s)
  | .hold => tickHold p s

/-- `mod_valid` and `mod_arg`: "the block presents the decoded value on `mod_arg` with `mod_valid = 1` for one clock and
samples `mod_res` in that clock" (R64), the clock in which the read frame's `HOLD` ends (R112). -/
def State.modArg (s : State) : Option RegVal :=
  if s.phase = .hold ∧ s.cnt = 0 ∧ s.opv = true ∧ s.errf = false ∧ s.stage = .frame1
      ∧ (s.op = .modify ∨ s.op = .modifyReread) then
    match regOperand s.cfg s.reg with
    | .ok R => (decodeReg R (fromWire s.rply)).toOption
    | .error _ => none
  else none

end Sys2Proof.Machine
end

