-- ==== Sys2Proof/Machine/Clock.lean ====
section
/-! DEFINITION. One clock edge of the block: reset, the request of the clock, the sequencer (spec/42_driver.md section 2,
spec/30_encoding.md R64, spec/70_reset_and_hazards.md R140). -/

namespace Sys2Proof.Machine

/-- Go on from a next state. -/
def onNext (o : Out) (k : State → Out) : Out :=
  match o with
  | .next s => k s
  | .fault f => .fault f
  | .refused r => .refused r

/-- The request of the clock and the sequencer's transition. `exec` sees the state before the edge, so that a driver
operation is accepted by the `busy` of that state (R64, R108); the sequencer moves in a clock that began busy. -/
def clockRequest (p : Pins) (q : Request) (s : State) : Out :=
  match decodeRequest q with
  | .ok i => onNext (exec i s) fun t => if s.busy then tick p t else .next t
  | .error _ =>
    if s.busy && Request.asksDriver q then tick p s else .refused .unconstructibleCommand

/-- One clock edge. A table or parameters that break R10 or R5 are refused (log entry 22); `rst` outranks everything:
"While `rst = 1` no request is accepted and no transport request is raised" (R140). -/
def clock (p : Pins) (s : State) : Out :=
  if s.cfg.wf then
    if p.rst then .next (resetState s)
    else
      match p.req with
      | none => tick p s.clearStrobes
      | some q => clockRequest p q s.clearStrobes
  else .refused .badParameters

/-- The pins of the coming clock; beyond the list they are quiet (log entry 3). -/
def State.nextPins (s : State) : Pins :=
  match s.pins with
  | [] => Pins.quiet
  | p :: _ => p

end Sys2Proof.Machine
end

