-- ==== Sys2Proof/Machine/Step.lean ====
section
/-! DEFINITION. One step is one clock edge; and the placing of one instruction before the next step. -/

namespace Sys2Proof.Machine

/-- One step: the clock edge with the next pins. -/
def step (s : State) : Host.Outcome State Fault Refusal :=
  clock s.nextPins s.dropPins

/-- The state with the instruction of a table word presented in the next clock, and all that the next step needs to run
it (log entry 19). -/
def State.withFetchWord (s : State) (nbits w : Nat) : State :=
  placeRequest (requestOfTableWord nbits w) s

end Sys2Proof.Machine
end

