-- ==== Sys2Proof/Machine/Source.lean ====
section
/-! DEFINITION. The driver's operations at the level the spec calls normative (spec/42_driver.md section 1 and section 3): the
ordered boundary events of each operation and its result, as a function of the transport's answers, with no clock. The
step function does not use this file; the obligations state that the clocked sequencer does exactly this (D26). The
pseudocode's `f` is a function here (R112). -/

namespace Sys2Proof.Machine

/-- The transport's answers in one frame; `recv` is not asked for when `send` failed (spec/20_memory.md R42). -/
structure FrameAns where
  send : SendAns
  recv : RecvAns
  deriving DecidableEq, Repr

/-- The boundary events of an operation and its result. -/
abbrev Ran (ε α : Type) := List Event × Except ε α

/-- `EXECUTE(c)`: the three traces of R100 and their results. -/
def srcExecute (p : Params) (c : CmdWord) (a : FrameAns) : Ran Nat Word :=
  let before : List Event := [.csLow, .delay p.tCsSetupMinNs]
  let after : List Event := [.csHigh, .delay p.tCsHighMinNs]
  match a.send with
  | .err e => (before ++ [.send (toWire c) (.err e)] ++ after, .error e)
  | .ok =>
    match a.recv with
    | .err e => (before ++ [.send (toWire c) .ok, .receive (.err e)] ++ after, .error e)
    | .ok w => (before ++ [.send (toWire c) .ok, .receive (.ok w)] ++ after, .ok (fromWire w))

/-- A failed frame inside a typed operation: `DriverError::Transport(e)` (R110, R111). -/
def asDriver {α : Type} (r : Except Nat α) : Except DriverError α :=
  match r with
  | .ok a => .ok a
  | .error e => .error (.transport e)

/-- `DECODE(R, w)` inside a typed operation: `DriverError::Decode(d)` (R110, R112). -/
def srcDecode (R : RegDesc) (w : Word) : Except DriverError RegVal :=
  match decodeReg R w with
  | .ok v => .ok v
  | .error d => .error (.decode d)

/-- One computation after another: the second's events follow the first's; "a call that returns `Err` ends the operation
at once" (section 3). -/
def andThen {α β : Type} (x : Ran DriverError α) (k : α → Ran DriverError β) : Ran DriverError β :=
  match x.2 with
  | .error e => (x.1, .error e)
  | .ok a => (x.1 ++ (k a).1, (k a).2)

/-- `READ(R)` (R110). -/
def srcRead (p : Params) (R : RegDesc) (a : FrameAns) : Ran DriverError RegVal :=
  let x := srcExecute p (makeRead R.address) a
  andThen (x.1, asDriver x.2) fun w => ([], srcDecode R w)

/-- `WRITE(R, v)` (R111): a framing failure comes before any boundary event. -/
def srcWrite (p : Params) (R : RegDesc) (v : RegVal) (a : FrameAns) : Ran DriverError Word :=
  match makeWrite R.address (encodeReg R v) with
  | .error e => ([], .error (.framing e))
  | .ok c =>
    let x := srcExecute p c a
    (x.1, asDriver x.2)

/-- `MODIFY(R, f)` (R112): the result is the decode of the write frame's reply. -/
def srcModify (p : Params) (R : RegDesc) (f : RegVal → RegVal) (a1 a2 : FrameAns) : Ran DriverError RegVal :=
  andThen (srcRead p R a1) fun v0 =>
    andThen (srcWrite p R (f v0) a2) fun w => ([], srcDecode R w)

/-- `MODIFY_REREAD(R, f)` (R113): the write's reply is discarded undecoded. -/
def srcModifyReread (p : Params) (R : RegDesc) (f : RegVal → RegVal) (a1 a2 a3 : FrameAns) : Ran DriverError RegVal :=
  andThen (srcRead p R a1) fun v0 =>
    andThen (srcWrite p R (f v0) a2) fun _ => srcRead p R a3

/-- A result as the response the host sees (spec/30_encoding.md R61). -/
def rspOfExecute : Except Nat Word → Response
  | .ok w => .okWord w
  | .error e => .errTransport e

def rspOfWord : Except DriverError Word → Response
  | .ok w => .okWord w
  | .error e => .errDriver e

def rspOfValue : Except DriverError RegVal → Response
  | .ok v => .okValue v
  | .error e => .errDriver e

/-- The wire words of the frames in a trace, in order (R114). -/
def sentWords : List Event → List Word
  | [] => []
  | .send w _ :: es => w :: sentWords es
  | _ :: es => sentWords es

/-! ## The same answers on the pins of the clocked block -/

/-- The transport's part in one frame: its answers, and how many clocks it lets pass before each. -/
structure FrameIn where
  ans      : FrameAns
  sendWait : Nat
  recvWait : Nat
  deriving DecidableEq, Repr

/-- The transport's error codes fit `t_err` (spec/60_exceptions.md R130). -/
def FrameAns.fits (p : Params) (a : FrameAns) : Prop :=
  (∀ e, a.send = .err e → e < 2 ^ p.terrW) ∧ (∀ e, a.recv = .err e → e < 2 ^ p.terrW)

/-- The clock in which `Send` is answered (R130). -/
def sendPins : SendAns → Pins
  | .ok => { Pins.quiet with txDone := true }
  | .err e => { Pins.quiet with txDone := true, txErr := true, tErr := e }

/-- The clock in which `Receive` is answered (R130). -/
def recvPins : RecvAns → Pins
  | .ok w => { Pins.quiet with rxDone := true, rxWord := w }
  | .err e => { Pins.quiet with rxDone := true, rxErr := true, tErr := e }

/-- The clocks of `RECV`, if the frame gets there. -/
def recvPhasePins (x : FrameIn) : List Pins :=
  match x.ans.send with
  | .ok => List.replicate x.recvWait Pins.quiet ++ [recvPins x.ans.recv]
  | .err _ => []

/-- The pins of one frame, from the clock after its start to the clock in which its `HOLD` ends, where `mod_res` stands
at `mr` (R101 to R107; spec/30_encoding.md R64). -/
def framePins (p : Params) (mr : ValPort) (x : FrameIn) : List Pins :=
  List.replicate (p.nSetup + 1) Pins.quiet
    ++ (List.replicate x.sendWait Pins.quiet ++ [sendPins x.ans.send])
    ++ recvPhasePins x
    ++ [Pins.quiet]
    ++ (List.replicate p.nHigh Pins.quiet ++ [{ Pins.quiet with modRes := mr }])

/-- The clock in which the host presents an instruction. -/
def reqPins (i : Instr) : Pins := { Pins.quiet with req := some (encode i) }

end Sys2Proof.Machine
end

