-- ==== Sys2Proof/Safety.lean ====
section
/-! DEFINITION. What a safe run is, in the terms the statements use: the sequencer's invariant (spec/10_state.md R16 to R21), the
order of the boundary events (spec/42_driver.md R100, R105) as an automaton over the trace, and runs of several clocks. -/

namespace Sys2Proof.Machine

/-- The phases in which chip-select is low (R17: "`SETUP`, `SEND`, `RECV` or `RELEASE`"). -/
def Phase.framed : Phase → Bool
  | .setup | .send | .recv | .release => true
  | .idle | .hold => false

/-- Which frames an operation has (spec/42_driver.md R114), and after which of them another one is due: only there can an
operation in flight stand in `IDLE` (R112, R113). -/
def stageLegal : HostOp → Stage → Phase → Bool
  | .execute, .frame1, ph | .read, .frame1, ph | .write, .frame1, ph => ph != .idle
  | .modify, .frame1, _ => true
  | .modify, .frame2, ph => ph != .idle
  | .modifyReread, .frame1, _ | .modifyReread, .frame2, _ => true
  | .modifyReread, .frame3, ph => ph != .idle
  | _, _, _ => false

/-- The invariant of the sequencer. -/
structure SeqInv (s : State) : Prop where
  /-- `S.CS_N = 0` exactly in the four framed phases (R17). -/
  chipSelect : s.csN = !s.phase.framed
  /-- The counter never exceeds what it was loaded with, and is zero outside the two delays (R18, R102, R107). -/
  cntSetup : s.phase = .setup → s.cnt ≤ s.cfg.nSetup
  cntHold : s.phase = .hold → s.cnt ≤ s.cfg.nHigh
  cntElse : s.phase ≠ .setup → s.phase ≠ .hold → s.cnt = 0
  /-- With no operation in flight the stage is `NONE` and no frame is open (R108, R126). -/
  atRest : s.opv = false → s.stage = .none ∧ s.phase.framed = false
  /-- An operation in flight is a driver operation in one of its own frames (R21, R114). -/
  inFlight : s.opv = true → stageLegal s.op s.stage s.phase = true
  /-- A typed operation's register is in REGTABLE (R59 item d). -/
  typed : s.opv = true → s.op ≠ .execute → (s.cfg.reg? s.reg).isSome = true
  /-- The optional operation runs only where it exists (R113). -/
  optional : s.opv = true → s.op = .modifyReread → s.cfg.hasModifyReread = true
  /-- An error is latched only on the way out of a frame (R103, R104). -/
  errLatched : s.opv = true → s.errf = true → s.phase = .release ∨ s.phase = .hold
  /-- The word of the frame is one the framer makes (R52, spec/41_framer.md R95). -/
  cmdWord : s.opv = true → (parseCmd s.cmd).constructible = true
  /-- `S.TERR` is `TERR_W` bits wide (R16). -/
  terrWidth : s.terr < 2 ^ s.cfg.terrW
  /-- `S.VAL` holds a register value of R when the write frame is due (R14, R112). -/
  valHeld : s.opv = true → s.stage = .frame1 → s.phase = .idle →
    ∀ R, s.cfg.reg? s.reg = some R → s.val.validFor R = true

/-- Where a trace stands inside the sequence of R100. -/
inductive BusMode where
  /-- Chip-select high and the inter-frame minimum kept. -/
  | released
  /-- Chip-select low, the setup minimum running. -/
  | low
  /-- The setup minimum kept. -/
  | settled
  /-- The command word sent, no reply yet. -/
  | sent
  /-- The reply received or an error met; chip-select still low. -/
  | over
  /-- Chip-select high, the inter-frame minimum running. -/
  | raised
  deriving DecidableEq, Repr

/-- One event in the order of R100, carrying a word the framer makes (spec/41_framer.md R95); none where R105 forbids
it. A reset releases the line whatever was going on (spec/70_reset_and_hazards.md R141). -/
def busNext (p : Params) : BusMode → Event → Option BusMode
  | _, .rst => some .released
  | .released, .csLow => some .low
  | .low, .delay t => if t = p.tCsSetupMinNs then some .settled else none
  | .settled, .send w a =>
    if (parseCmd w).constructible then (match a with | .ok => some .sent | .err _ => some .over) else none
  | .sent, .receive _ => some .over
  | .over, .csHigh => some .raised
  | .raised, .delay t => if t = p.tCsHighMinNs then some .released else none
  | _, _ => none

/-- A whole trace. -/
def busRun (p : Params) : BusMode → List Event → Option BusMode
  | m, [] => some m
  | m, e :: es =>
    match busNext p m e with
    | some m' => busRun p m' es
    | none => none

/-- Where a trace stands when the sequencer is in a phase; the hold after a reset belongs to no frame. -/
def State.busMode (s : State) : BusMode :=
  match s.phase with
  | .idle => .released
  | .setup => .low
  | .send => .settled
  | .recv => .sent
  | .release => .over
  | .hold => if s.opv then .raised else .released

/-- Every event of the trace stands where R105 allows it, and the sequencer's phase agrees with the trace. -/
def TraceShape (s : State) : Prop := busRun s.cfg .released s.trace = some s.busMode

/-- `k` clocks of the block. -/
def runFor (k : Nat) (s : State) : Out := Host.Core.run Sys2Proof.core k s

end Sys2Proof.Machine
end

