-- ==== Sys2Proof/Certificates/Slice0/Obligations.lean ====
section
/-! DEFINITION. The statements for the provers. Rules are those of spec/; a statement about the clocked block is about
`exec` (what a request does in its clock), `tick` (what the sequencer does in a clock) or `step` (one whole clock). -/

open Sys2Proof Sys2Proof.Machine

/-! ## Encoding -/

/-- Words written out from R50, R52 and the op codes of R60. That an 8-bit word carries `req_reg` at bits 7:4 beside the
op code, and that every port above those bits reads zero, is the model's numbering of a host request (log entry 10). -/
def Obligations.TableWordsDecode : Prop :=
  decodeTableWord 16 0b1110000000000000 = some (.rd 0xC#4)
  ∧ decodeTableWord 16 0b1000100000000000 = some (.rd 0x1#4)
  ∧ decodeTableWord 16 0b0011100100000000 = some (.wr 0x7#4 0x100#11)
  ∧ decodeTableWord 16 0b0000110000000000 = some (.wr 0x1#4 0x400#11)
  ∧ decodeTableWord 16 0b1000000000000001 = none
  ∧ decodeTableWord 8 0b00000000 = some (.address 0#4)
  ∧ decodeTableWord 8 0b00010000 = some (.address 1#4)
  ∧ decodeTableWord 8 0b00001000 = some (.fromWire 0#16)
  ∧ decodeTableWord 8 0b00001010 = some (.read 0#4)
  ∧ decodeTableWord 8 0b00001100 = some (.modify 0#4)
  ∧ decodeTableWord 8 0b00001110 = some .reservedE

/-- Every well-formed instruction, every operand at every value its port carries: the decoder reads from the encoder's
bits the instruction itself, and for a named instance the WITH_FIELD it is (R60, R62, R64, R75 to R77). The numbering of
a host request's ports is the model's (log entry 10), and so is the reading that code 0x4 is WITH_FIELD and never a named
instance (log entry 9). -/
def Obligations.DecodeOfEncode : Prop :=
  ∀ i : Instr, i.wf = true →
    decodeTableWord (encode i).tableWord.1 (encode i).tableWord.2 = some i.coreForm

/-- What the decoder reads is well-formed (R15, R59), and never a second name, whatever the host presents: that no request
decodes to a named instance of WITH_FIELD is the model's reading of R60, R62 and R75 to R77 (log entry 9). -/
def Obligations.DecodedIsWellFormed : Prop :=
  ∀ (q : Request) (i : Instr), decodeRequest q = .ok i → i.wf = true ∧ i.coreForm = i

/-- R52 by its match and mask: bit 15 alone tells the two wire words apart; every word with bit 15 = 0 is a WR; with
bit 15 = 1 only the words with 10:0 zero are an RD, and the rest are rejected. -/
def Obligations.WireWordForms : Prop :=
  ∀ w : Word,
    (w &&& 0x8000#16 = 0#16 → decodeWire w = .ok (.wr (w.extractLsb' 11 4) (w.extractLsb' 0 11)))
    ∧ (w &&& 0x87FF#16 = 0x8000#16 → decodeWire w = .ok (.rd (w.extractLsb' 11 4)))
    ∧ (w &&& 0x8000#16 ≠ 0#16 → w &&& 0x87FF#16 ≠ 0x8000#16 → decodeWire w = .error .readWithPayload)

/-! ## The framer -/

/-- R94, the sixteen read words included. -/
def Obligations.FramingExactness : Prop :=
  (∀ a : Addr, (toWire (makeRead a)).toNat = 0x8000 + 2048 * a.toNat)
  ∧ (∀ (a : Addr) (p : Word), p.toNat < 2048 →
      ∃ c, makeWrite a p = .ok c ∧ (toWire c).toNat = 2048 * a.toNat + p.toNat)
  ∧ (List.range 16).map (fun n => toWire (makeRead (BitVec.ofNat 4 n)))
      = [0x8000#16, 0x8800#16, 0x9000#16, 0x9800#16, 0xA000#16, 0xA800#16, 0xB000#16, 0xB800#16,
         0xC000#16, 0xC800#16, 0xD000#16, 0xD800#16, 0xE000#16, 0xE800#16, 0xF000#16, 0xF800#16]

/-- TO_WIRE is injective on command words, PARSE inverts it on its image, and the image is as R95 describes it. -/
def Obligations.WireImage : Prop :=
  (∀ c d : CmdWord, c.constructible = true → d.constructible = true → toWire c = toWire d → c = d)
  ∧ (∀ c : CmdWord, parseCmd (toWire c) = c)
  ∧ (∀ w : Word, (∃ c : CmdWord, c.constructible = true ∧ toWire c = w)
      ↔ (w.getLsbD 15 = false ∨ ∃ a : Addr, w = toWire (makeRead a)))

/-- MAKE_READ answers `{Read, a, 0}` for every address and changes nothing else (R90). -/
def Obligations.MakeReadAnswers : Prop :=
  (∀ (a : Addr) (s : State),
    exec (.makeRead a) s
      = .next { s with rspPure := some (.okCommand { kind := .read, address := a, payload := 0#11 }) })
  ∧ HostOp.makeRead.code = 0x5#4
  ∧ toWire (makeRead 0x7#4) = 0xB800#16

/-- MAKE_WRITE answers the command word when `p < 2048` and PayloadTooWide otherwise, never a truncated one; the
condition is `p & 0xF800 != 0`; nothing else changes (R91). -/
def Obligations.MakeWriteAnswers : Prop :=
  (∀ (a : Addr) (p : Word) (s : State), p.toNat < 2048 →
    exec (.makeWrite a p) s
      = .next { s with rspPure := some (.okCommand { kind := .write, address := a, payload := p.setWidth 11 }) })
  ∧ (∀ (a : Addr) (p : Word) (s : State), 2048 ≤ p.toNat →
    exec (.makeWrite a p) s = .next { s with rspPure := some (.errFraming .payloadTooWide) })
  ∧ (∀ p : Word, (p &&& 0xF800#16 ≠ 0#16) ↔ 2048 ≤ p.toNat)
  ∧ HostOp.makeWrite.code = 0x6#4
  ∧ (∃ c, makeWrite 0x1#4 0x0400#16 = .ok c ∧ toWire c = 0x0C00#16)
  ∧ makeWrite 0x1#4 0x1000#16 = .error .payloadTooWide

/-- TO_WIRE answers the word of R50 for a command word the framer can make; nothing else changes (R92). That any other
command word ends the step in a refusal is the model's reading of R15 and D22 (log entry 7). -/
def Obligations.ToWireAnswers : Prop :=
  (∀ (c : CmdWord) (s : State), c.constructible = true →
    ∃ w : Word,
      exec (.toWire c) s = .next { s with rspPure := some (.okWord w) }
      ∧ w.toNat = (match c.kind with | .read => 32768 | .write => 0) + 2048 * c.address.toNat + c.payload.toNat)
  ∧ (∀ (c : CmdWord) (s : State), c.constructible = false →
    exec (.toWire c) s = .refused .unconstructibleCommand)
  ∧ HostOp.toWire.code = 0x7#4
  ∧ toWire (makeRead 0xC#4) = 0xE000#16 ∧ toWire (makeRead 0x2#4) = 0x9000#16

/-- FROM_WIRE answers the word itself, no bit masked, and changes nothing else (R93). -/
def Obligations.FromWireAnswers : Prop :=
  (∀ (raw : Word) (s : State), exec (.fromWire raw) s = .next { s with rspPure := some (.okWord raw) })
  ∧ HostOp.fromWire.code = 0x8#4

/-! ## The codec -/

/-- ADDRESS answers the descriptor's address for every index of REGTABLE, 0x7 and 0x1 for the two mandatory entries in
every build, and changes nothing else (R70). That the two stand at the indexes 0 and 1 is the model's (log entry 1), and
that an index without an entry ends the step in a refusal is its reading of R59 item d (log entry 7). -/
def Obligations.AddressAnswers : Prop :=
  (∀ (r : RegIdx) (R : RegDesc) (s : State), s.cfg.reg? r = some R →
    exec (.address r) s = .next { s with rspPure := some (.okAddress R.address) })
  ∧ (∀ s : State, exec (.address 0#4) s = .next { s with rspPure := some (.okAddress 0x7#4) })
  ∧ (∀ s : State, exec (.address 1#4) s = .next { s with rspPure := some (.okAddress 0x1#4) })
  ∧ (∀ (r : RegIdx) (s : State), s.cfg.reg? r = none → exec (.address r) s = .refused .noSuchRegister)
  ∧ HostOp.address.code = 0x0#4

/-- R71. DECODE of a word all of whose fields hold legal patterns: the snapshot is the whole word and each field is what
R56 extracts. DECODE of a word with an undefined pattern: the error names the first such field in descriptor order and
the extracted integer. Nothing else changes. -/
def Obligations.DecodeAnswers : Prop :=
  (∀ (r : RegIdx) (R : RegDesc) (raw : Word) (s : State), s.cfg.reg? r = some R →
    (∀ f ∈ R.fields, f.allows (extractField raw f.offset f.width) = true) →
    exec (.decode r raw) s
      = .next { s with rspPure := some (.okValue
          { bits := raw, codes := R.fields.map fun f => (raw &&& (mask f.width <<< f.offset)) >>> f.offset }) })
  ∧ (∀ (r : RegIdx) (R : RegDesc) (raw : Word) (s : State) (k : Nat) (f : FieldDesc), s.cfg.reg? r = some R →
    R.fields[k]? = some f →
    f.allows (extractField raw f.offset f.width) = false →
    (∀ (j : Nat) (g : FieldDesc), j < k → R.fields[j]? = some g →
      g.allows (extractField raw g.offset g.width) = true) →
    exec (.decode r raw) s
      = .next { s with rspPure := some (.errDecode (.invalidFieldValue k (extractField raw f.offset f.width))) })
  ∧ (∀ (f : FieldDesc) (c : Word), f.allows c = false ↔
      (f.domain = .raw ∧ 2 ^ f.width ≤ c.toNat) ∨ ∃ ms, f.domain = .enumerated ms ∧ ∀ m ∈ ms, m.2 ≠ c.toNat)
  ∧ HostOp.decode.code = 0x1#4

/-- R82: DECODE fails exactly when some enumerated field's integer is the code of no member; for `GateDriveControl`
exactly when bits 8:7 are 11, with field 1 and value 3; for `WarningAndWatchdog`, whatever the flags are, never. -/
def Obligations.DecodeDomainOfFailure : Prop :=
  (∀ (R : RegDesc) (raw : Word), R.wf = true →
    ((∃ e, decodeReg R raw = .error e) ↔
      ∃ f ∈ R.fields, ∃ ms, f.domain = .enumerated ms ∧
        ∀ m ∈ ms, m.2 ≠ (extractField raw f.offset f.width).toNat))
  ∧ (∀ raw : Word, (∃ e, decodeReg gateDriveControl raw = .error e) ↔ raw &&& 0x0180#16 = 0x0180#16)
  ∧ (∀ raw : Word, raw &&& 0x0180#16 = 0x0180#16 →
      decodeReg gateDriveControl raw = .error (.invalidFieldValue 1 3#16))
  ∧ (∀ (p : Params) (raw : Word), p.wf = true → ∃ v, decodeReg (warningAndWatchdog p.wwFlags) raw = .ok v)

/-- R72. ENCODE of a register value: the result holds each field's code at its place and the snapshot's bit everywhere else,
bits 15:11 included; it never fails and changes nothing else (R72, R58). -/
def Obligations.EncodeAnswers : Prop :=
  HostOp.encode.code = 0x2#4 ∧
  ∀ (r : RegIdx) (R : RegDesc) (p : ValPort) (v : RegVal) (s : State), s.cfg.reg? r = some R → R.wf = true →
    valOperand R p = .ok v →
    ∃ w : Word,
      exec (.encode r p) s = .next { s with rspPure := some (.okWord w) }
      ∧ (∀ (k : Nat) (f : FieldDesc) (c : Word), R.fields[k]? = some f → v.codes[k]? = some c →
          extractField w f.offset f.width = c)
      ∧ (∀ i : Nat, (∀ f ∈ R.fields, i < f.offset ∨ f.offset + f.width ≤ i) → w.getLsbD i = p.bits.getLsbD i)

/-- GET_FIELD answers the stored field value; an index past the last field is refused; nothing else changes (R73). -/
def Obligations.GetFieldAnswers : Prop :=
  (∀ (r : RegIdx) (R : RegDesc) (p : ValPort) (v : RegVal) (k : FieldIdx) (c : Word) (s : State),
    s.cfg.reg? r = some R → valOperand R p = .ok v → v.codes[k.toNat]? = some c →
    exec (.getField r p k) s = .next { s with rspPure := some (.okField c) })
  ∧ (∀ (r : RegIdx) (R : RegDesc) (p : ValPort) (v : RegVal) (k : FieldIdx) (s : State),
    s.cfg.reg? r = some R → valOperand R p = .ok v → R.fields.length ≤ k.toNat →
    exec (.getField r p k) s = .refused .noSuchField)
  ∧ HostOp.getField.code = 0x3#4

/-- R74. WITH_FIELD answers the value with field `k` set and the snapshot unchanged, for every operand in the field's
domain; the result is a register value again; nothing else changes. A value outside the domain cannot be set. That an
enumerated code without a member, a code wider than the field and an index past the last field end the step in a
refusal is the model's reading of R64 with U7, D18 and R73 (log entry 7). -/
def Obligations.WithFieldAnswers : Prop :=
  (∀ (r : RegIdx) (R : RegDesc) (p : ValPort) (v : RegVal) (k : FieldIdx) (f : FieldDesc) (x : BitVec 11) (s : State),
    s.cfg.reg? r = some R → R.wf = true → valOperand R p = .ok v → R.fields[k.toNat]? = some f →
    (f.allows (x.setWidth 16) = true →
      exec (.withField r p k x) s
        = .next { s with rspPure := some (.okValue { bits := p.bits, codes := v.codes.set k.toNat (x.setWidth 16) }) }
      ∧ RegVal.validFor { bits := p.bits, codes := v.codes.set k.toNat (x.setWidth 16) } R = true)
    ∧ (f.allows (x.setWidth 16) = false →
      exec (.withField r p k x) s = .refused .noSuchMember
      ∨ exec (.withField r p k x) s = .refused .operandTooWide))
  ∧ (∀ (r : RegIdx) (R : RegDesc) (p : ValPort) (v : RegVal) (k : FieldIdx) (x : BitVec 11) (s : State),
    s.cfg.reg? r = some R → valOperand R p = .ok v → R.fields.length ≤ k.toNat →
    exec (.withField r p k x) s = .refused .noSuchField)
  ∧ HostOp.withField.code = 0x4#4

/-- WITH_COMM_OPTION and WITH_PWM_MODE are WITH_FIELD with the register and the field fixed; they complete on every
register value of `GateDriveControl`; after ENCODE only bit 9, or only bits 8:7, can differ from what the value
encoded to before, and they hold the code (R75, R76). That WITH_FIELD names the register by index 0 is the model's
(log entry 1). -/
def Obligations.GateDriveSetters : Prop :=
  ∀ (p : ValPort) (v : RegVal) (s : State), valOperand gateDriveControl p = .ok v →
    (∀ x : CommOption, ∃ u : RegVal,
      exec (.withCommOption p x) s = .next { s with rspPure := some (.okValue u) }
      ∧ exec (.withField 0#4 p 0#4 (match x with | .diode => 0#11 | .active => 1#11)) s
          = .next { s with rspPure := some (.okValue u) }
      ∧ u.bits = p.bits
      ∧ encodeReg gateDriveControl u
          = (encodeReg gateDriveControl v &&& 0xFDFF#16) ||| (match x with | .diode => 0x0000#16 | .active => 0x0200#16))
    ∧ (∀ x : PwmMode, ∃ u : RegVal,
      exec (.withPwmMode p x) s = .next { s with rspPure := some (.okValue u) }
      ∧ exec (.withField 0#4 p 1#4 (match x with | .six => 0#11 | .three => 1#11 | .one => 2#11)) s
          = .next { s with rspPure := some (.okValue u) }
      ∧ u.bits = p.bits
      ∧ encodeReg gateDriveControl u
          = (encodeReg gateDriveControl v &&& 0xFE7F#16)
            ||| (match x with | .six => 0x0000#16 | .three => 0x0080#16 | .one => 0x0100#16))

/-- WITH_WW_FLAG is WITH_FIELD with the register fixed; it completes for each of the ten flags of WW_FLAGS, whatever
they are; after ENCODE the bit at the flag's
offset is `b` and every other bit is as before: the flags are independent (R77). That WITH_FIELD names the register by index 1 is the
model's (log entry 1). -/
def Obligations.FlagSetters : Prop :=
  ∀ (p : ValPort) (v : RegVal) (j : FieldIdx) (b : BitVec 1) (s : State), s.cfg.wf = true →
    valOperand (warningAndWatchdog s.cfg.wwFlags) p = .ok v → j.toNat < 10 →
    ∃ (o : FieldName × Nat) (u : RegVal),
      s.cfg.wwFlags[j.toNat]? = some o
      ∧ exec (.withWwFlag p j b) s = .next { s with rspPure := some (.okValue u) }
      ∧ exec (.withField 1#4 p j (b.setWidth 11)) s = .next { s with rspPure := some (.okValue u) }
      ∧ u.bits = p.bits
      ∧ (encodeReg (warningAndWatchdog s.cfg.wwFlags) u).getLsbD o.2 = b.getLsbD 0
      ∧ ∀ i : Nat, i ≠ o.2 →
          (encodeReg (warningAndWatchdog s.cfg.wwFlags) u).getLsbD i
            = (encodeReg (warningAndWatchdog s.cfg.wwFlags) v).getLsbD i

/-- R78, for every descriptor that meets R10: encoding what a word decoded to gives the word back, all 16 bits. -/
def Obligations.CodecRoundTrip : Prop :=
  ∀ (R : RegDesc) (raw : Word) (v : RegVal), R.wf = true → decodeReg R raw = .ok v → encodeReg R v = raw

/-- R79: one setter and an encode change only that field's span, which holds the code. -/
def Obligations.FieldIsolation : Prop :=
  ∀ (R : RegDesc) (raw : Word) (v : RegVal) (k : Nat) (f : FieldDesc) (x : Word), R.wf = true →
    decodeReg R raw = .ok v → R.fields[k]? = some f → f.allows x = true →
    encodeReg R (v.setCode k x) = insertField raw f.offset f.width x

/-- R80: for every register value, DECODE after ENCODE succeeds and gives the same fields with the word as snapshot. -/
def Obligations.NormalForm : Prop :=
  ∀ (R : RegDesc) (v : RegVal), R.wf = true → v.validFor R = true →
    decodeReg R (encodeReg R v) = .ok { bits := encodeReg R v, codes := v.codes }

/-- R81: setters of different fields commute, on the same field the last wins, and a field reads as last set. -/
def Obligations.SetterAlgebra : Prop :=
  ∀ (v : RegVal) (j k : Nat) (x y : Word),
    (j ≠ k → (v.setCode j x).setCode k y = (v.setCode k y).setCode j x)
    ∧ (v.setCode k x).setCode k y = v.setCode k y
    ∧ (k < v.codes.length → (v.setCode k x).codes[k]? = some x)
    ∧ (j ≠ k → (v.setCode k x).codes[j]? = v.codes[j]?)

/-- Every register value goes through the port `req_val` unchanged: its packing loses nothing (R64, R14). The bit places
of the packing are the model's choice (log entry 11). -/
def Obligations.ValuePortRoundTrip : Prop :=
  ∀ (R : RegDesc) (v : RegVal), R.wf = true → v.validFor R = true → valOperand R (v.toPort R) = .ok v

/-- A pure operation that answers, and a reserved code, change nothing but the strobe of a pure response: no element of
R16, no event, no bus activity (R60, R114). -/
def Obligations.PureTouchesNothing : Prop :=
  ∀ (i : Instr) (s t : State), i.isDriver = false → exec i s = .next t → t = { s with rspPure := t.rspPure }

/-! ## The driver: the clock that presents a request -/

/-- EXECUTE on a ready block, and the wire words RD and WR, which are the EXECUTE of their command word: the operation is
in flight in its first frame, the command word latched, chip-select low, the setup count loaded (R108, R101, R43). The
model's: that a bare wire word is an EXECUTE (log entry 8), that `S.REG` stays (log entry 15), and that an
unconstructible command word ends the step in a refusal (its reading of R15 and D22, log entry 7). -/
def Obligations.ExecuteAccepted : Prop :=
  (∀ (c : CmdWord) (s : State), s.busy = false → c.constructible = true →
    exec (.execute c) s
      = .next { s with
          opv := true, op := .execute, stage := .frame1, cmd := toWire c, errf := false, csN := false,
          cnt := s.cfg.nSetup, phase := .setup, trace := s.trace ++ [.csLow] })
  ∧ (∀ (a : Addr) (s : State), s.busy = false →
    exec (.rd a) s
      = .next { s with
          opv := true, op := .execute, stage := .frame1, cmd := 0x8000#16 ||| (a.setWidth 16 <<< 11), errf := false,
          csN := false, cnt := s.cfg.nSetup, phase := .setup, trace := s.trace ++ [.csLow] })
  ∧ (∀ (a : Addr) (d : Payload) (s : State), s.busy = false →
    exec (.wr a d) s
      = .next { s with
          opv := true, op := .execute, stage := .frame1, cmd := (a.setWidth 16 <<< 11) ||| d.setWidth 16,
          errf := false, csN := false, cnt := s.cfg.nSetup, phase := .setup, trace := s.trace ++ [.csLow] })
  ∧ (∀ (c : CmdWord) (s : State), s.busy = false → c.constructible = false →
    exec (.execute c) s = .refused .unconstructibleCommand)

/-- READ, MODIFY and, where it exists, MODIFY_REREAD on a ready block begin with the read frame of the register's address
(R110, R112, R113, R108, R101). -/
def Obligations.ReadFrameAccepted : Prop :=
  ∀ (r : RegIdx) (R : RegDesc) (s : State), s.busy = false → s.cfg.reg? r = some R →
    (exec (.read r) s
      = .next { s with
          opv := true, op := .read, reg := r, stage := .frame1, cmd := 0x8000#16 ||| (R.address.setWidth 16 <<< 11),
          errf := false, csN := false, cnt := s.cfg.nSetup, phase := .setup, trace := s.trace ++ [.csLow] })
    ∧ (exec (.modify r) s
      = .next { s with
          opv := true, op := .modify, reg := r, stage := .frame1, cmd := 0x8000#16 ||| (R.address.setWidth 16 <<< 11),
          errf := false, csN := false, cnt := s.cfg.nSetup, phase := .setup, trace := s.trace ++ [.csLow] })
    ∧ (s.cfg.hasModifyReread = true →
        exec (.modifyReread r) s
          = .next { s with
              opv := true, op := .modifyReread, reg := r, stage := .frame1,
              cmd := 0x8000#16 ||| (R.address.setWidth 16 <<< 11), errf := false, csN := false,
              cnt := s.cfg.nSetup, phase := .setup, trace := s.trace ++ [.csLow] })

/-- WRITE on a ready block starts the write frame of the encoded value when bits 15:11 of the snapshot are clear; when one
of them is set it ends in that clock with a framing error, no event, and `S.OPV` never set (R111, R108, R148). That the
failed WRITE leaves `S.OP` and `S.REG` too as they were, so that no element of R16 changes, is the model's choice: R126
lets both change (log entry 15). -/
def Obligations.WriteAccepted : Prop :=
  ∀ (r : RegIdx) (R : RegDesc) (p : ValPort) (v : RegVal) (s : State), s.busy = false → s.cfg.reg? r = some R →
    R.wf = true → valOperand R p = .ok v →
    (p.bits &&& 0xF800#16 = 0#16 →
      exec (.write r p) s
        = .next { s with
            opv := true, op := .write, reg := r, stage := .frame1,
            cmd := (R.address.setWidth 16 <<< 11) ||| encodeReg R v, errf := false, csN := false,
            cnt := s.cfg.nSetup, phase := .setup, trace := s.trace ++ [.csLow] })
    ∧ (p.bits &&& 0xF800#16 ≠ 0#16 →
      exec (.write r p) s = .next { s with rspDrv := some (.errDriver (.framing .payloadTooWide)) })

/-- While `busy` = 1 a presented driver operation is not accepted and has no effect, whatever its operands; and the running
operation is not disturbed: a clock with a driver request, a malformed command word included, is on a busy block the
clock without one (R108, V22). That "no effect" is a next state, and not a stop, is the model's reading (log entry 6). -/
def Obligations.BusyTurnsDriverAway : Prop :=
  (∀ (i : Instr) (s : State), i.isDriver = true → s.busy = true → exec i s = .next s)
  ∧ (∀ (p : Pins) (q : Request) (s : State), s.busy = true → Request.asksDriver q = true →
    clock { p with req := some q } s = clock { p with req := none } s)

/-- The reserved codes, and 0xD in a build without the optional operation, change no state, raise no event and answer
nothing (R60, R59 item g). That "no effect" is a next state, and not a stop, is the model's reading (log entry 6). -/
def Obligations.ReservedCodesDoNothing : Prop :=
  (∀ s : State, exec .reservedE s = .next s)
  ∧ (∀ s : State, exec .reservedF s = .next s)
  ∧ (∀ (r : RegIdx) (s : State), s.cfg.hasModifyReread = false → exec (.modifyReread r) s = .next s)

/-! ## The step -/

/-- A step runs the decoded instruction: `exec` of it on the state with the strobes of the last clock ended and this
clock's pins used up, and then, if the block was busy, the sequencer's own transition. A step with no request is that
transition alone; with no pins left the pins are quiet (log entry 3). -/
def Obligations.StepRunsDecoded : Prop :=
  (∀ (s : State) (p : Pins) (ps : List Pins) (q : Request) (i : Instr), s.cfg.wf = true → s.pins = p :: ps →
    p.rst = false → p.req = some q → decodeRequest q = .ok i →
    step s
      = onNext (exec i { s with pins := ps, rspPure := none, rspDrv := none })
          (fun t => if s.busy then tick p t else .next t))
  ∧ (∀ (s : State) (p : Pins) (ps : List Pins), s.cfg.wf = true → s.pins = p :: ps → p.rst = false → p.req = none →
    step s = tick p { s with pins := ps, rspPure := none, rspDrv := none })
  ∧ (∀ s : State, s.cfg.wf = true → s.pins = [] →
    step s = tick Pins.quiet { s with rspPure := none, rspDrv := none })

/-- The one-instruction interface (the model's, log entry 19): after `withFetchWord` the next step runs exactly the
instruction of the table word, and a driver operation finds the block ready. -/
def Obligations.FetchWordIsRun : Prop :=
  ∀ (s : State) (nbits w : Nat) (i : Instr), s.cfg.wf = true → decodeTableWord nbits w = some i →
    step (s.withFetchWord nbits w)
      = onNext (exec i { s.withFetchWord nbits w with pins := s.pins.tail, rspPure := none, rspDrv := none })
          (fun t => if (s.withFetchWord nbits w).busy then tick (s.withFetchWord nbits w).nextPins t else .next t)
    ∧ (i.isDriver = true → (s.withFetchWord nbits w).busy = false)
    ∧ (i.isDriver = false → s.withFetchWord nbits w = { s with pins := (s.withFetchWord nbits w).pins })

/-- R140, R141: an edge with `rst` = 1, in any state and whatever else is on the pins, gives the values of R25, keeps the
parameters and reports nothing; the transport requests are low. The six latches R25 leaves unspecified take the
model's value (log entry 2), the mark in the trace is the model's (log entry 5), and that a pure request at this edge is
not answered is its reading of "no request is accepted" (log entry 23). -/
def Obligations.ResetEdge : Prop :=
  ∀ (s : State) (p : Pins) (ps : List Pins), s.cfg.wf = true → s.pins = p :: ps → p.rst = true →
    ∃ t : State, step s = .next t
      ∧ t.csN = true ∧ t.phase = .hold ∧ t.cnt = s.cfg.nHigh ∧ t.opv = false ∧ t.stage = .none ∧ t.errf = false
      ∧ t.rspDrv = none ∧ t.rspPure = none ∧ t.busy = true ∧ t.txReq = false ∧ t.rxReq = false
      ∧ t.cfg = s.cfg ∧ t.pins = ps ∧ t.trace = s.trace ++ [.rst]

/-- The state after reset (R25): chip-select high, the full inter-frame hold owed, nothing in flight, busy. The
values of the parameters R5 leaves open, which the last clause checks, are the model's (log entry 1). -/
def Obligations.ResetState : Prop :=
  State.reset.csN = true ∧ State.reset.phase = .hold ∧ State.reset.cnt = State.reset.cfg.nHigh
  ∧ State.reset.opv = false ∧ State.reset.stage = .none ∧ State.reset.errf = false
  ∧ State.reset.busy = true ∧ State.reset.rspDrv = none ∧ State.reset.rspPure = none
  ∧ State.reset.cfg.wf = true

/-- After a reset with nothing presented, `busy` falls after `N_HIGH` + 1 clocks and not before, nothing is reported and no
event happens (R140, R107, R25), for every build. The model's: that the hold after a reset is no event (log entry 5),
and that the pins are quiet where none are listed (log entry 3). -/
def Obligations.PowerUp : Prop :=
  ∀ (s : State) (k : Nat), s.cfg.wf = true → s.phase = .hold → s.cnt = s.cfg.nHigh → s.opv = false → s.pins = [] →
    ∃ t : State, runFor (k + 1) s = .next t
      ∧ t.rspDrv = none ∧ t.rspPure = none ∧ t.trace = s.trace ∧ t.csN = s.csN
      ∧ (t.busy = true ↔ k < s.cfg.nHigh)

/-! ## The sequencer, phase by phase -/

/-- R102: `SETUP` counts, and with the count at zero raises the send request; the transport's pins are not looked at. The
model's: the trace takes the delay at this edge and the `Send` only with its answer (log entry 5). -/
def Obligations.SetupPhase : Prop :=
  ∀ (p : Pins) (s : State), s.phase = .setup →
    (s.cnt ≠ 0 → tick p s = .next { s with cnt := s.cnt - 1 })
    ∧ (s.cnt = 0 →
        ∃ t : State, tick p s = .next t ∧ t.txReq = true ∧ t.txWord = s.cmd
          ∧ t = { s with phase := .send, trace := s.trace ++ [.delay s.cfg.tCsSetupMinNs] })
    ∧ s.txReq = false ∧ s.rxReq = false

/-- R103: `SEND` waits; `ok` raises the receive request; `err(e)` latches the error and goes to `RELEASE`. The model's: the
trace takes the `Send` in the clock of its answer, and the `Receive` not yet (log entry 5). -/
def Obligations.SendPhase : Prop :=
  ∀ (p : Pins) (s : State), s.phase = .send →
    (p.txDone = false → tick p s = .next s)
    ∧ (p.txDone = true → p.txErr = false →
        ∃ t : State, tick p s = .next t ∧ t.rxReq = true
          ∧ t = { s with phase := .recv, trace := s.trace ++ [.send s.cmd .ok] })
    ∧ (p.txDone = true → p.txErr = true → p.tErr < 2 ^ s.cfg.terrW →
        tick p s
          = .next { s with
              terr := p.tErr, errf := true, phase := .release, trace := s.trace ++ [.send s.cmd (.err p.tErr)] })
    ∧ s.rxReq = false

/-- R104: `RECV` waits; `ok(r)` latches all 16 bits; `err(e)` latches the error and leaves `S.RPLY` as it was. The
model's: the trace takes the `Receive` in the clock of its answer (log entry 5). -/
def Obligations.RecvPhase : Prop :=
  ∀ (p : Pins) (s : State), s.phase = .recv →
    (p.rxDone = false → tick p s = .next s)
    ∧ (p.rxDone = true → p.rxErr = false →
        tick p s
          = .next { s with
              rply := p.rxWord, phase := .release, trace := s.trace ++ [.receive (.ok p.rxWord)] })
    ∧ (p.rxDone = true → p.rxErr = true → p.tErr < 2 ^ s.cfg.terrW →
        tick p s
          = .next { s with
              terr := p.tErr, errf := true, phase := .release, trace := s.trace ++ [.receive (.err p.tErr)] })

/-- R106: `RELEASE` lasts one clock and raises chip-select, and from `SETUP`, `SEND` and `RECV` no transition leads
past it. -/
def Obligations.ReleasePhase : Prop :=
  (∀ (p : Pins) (s : State), s.phase = .release →
    tick p s = .next { s with csN := true, cnt := s.cfg.nHigh, phase := .hold, trace := s.trace ++ [.csHigh] })
  ∧ (∀ (p : Pins) (s t : State), s.phase = .setup ∨ s.phase = .send ∨ s.phase = .recv → tick p s = .next t →
    t.phase = .setup ∨ t.phase = .send ∨ t.phase = .recv ∨ t.phase = .release)

/-- R107: `HOLD` counts; at zero it goes to `IDLE`, and with no operation in flight reports nothing; with `EXECUTE` in
flight the frame's result is the operation's (R100): the transport error if one was latched, else the whole reply. The
model's: the trace takes the delay at this edge, and nothing for the hold after a reset (log entry 5). -/
def Obligations.HoldPhase : Prop :=
  ∀ (p : Pins) (s : State), s.phase = .hold →
    (s.cnt ≠ 0 → tick p s = .next { s with cnt := s.cnt - 1 })
    ∧ (s.cnt = 0 → s.opv = false → tick p s = .next { s with phase := .idle })
    ∧ (s.cnt = 0 → s.opv = true → s.op = .execute →
        tick p s
          = .next { s with
              phase := .idle, opv := false, stage := .none, trace := s.trace ++ [.delay s.cfg.tCsHighMinNs],
              rspDrv := some (if s.errf then .errTransport s.terr else .okWord s.rply) })

/-- A frame of READ, WRITE, MODIFY or MODIFY_REREAD that met a transport error ends the operation with
DriverError::Transport, in whichever frame it was (R110 to R113, R123, R125). The model's: the trace takes the delay at
this edge (log entry 5). -/
def Obligations.TransportErrorEndsOperation : Prop :=
  ∀ (p : Pins) (s : State), s.phase = .hold → s.cnt = 0 → s.opv = true → s.errf = true →
    (s.op = .read ∨ s.op = .write ∨ s.op = .modify ∨ s.op = .modifyReread) →
    tick p s
      = .next { s with
          phase := .idle, opv := false, stage := .none, trace := s.trace ++ [.delay s.cfg.tCsHighMinNs],
          rspDrv := some (.errDriver (.transport s.terr)) }

/-- The read frame of MODIFY or MODIFY_REREAD has ended well: the callback's answer is latched in `S.VAL`, the operation
stays in flight and nothing is presented; if the reply holds an undefined pattern the operation ends with
DriverError::Decode and `f` is not applied, `S.VAL` as it was (R112, R113, R64). An answer on `mod_res` with a code of no
member, or wider than its field, is outside the contract and refused by name (R64, U7, D18; log entry 7). The model's:
the block stands in `IDLE` with the operation in flight before the write frame (log entry 13), the callback is sampled
at this edge (log entry 14), and the trace takes the delay at it (log entry 5). -/
def Obligations.ModifyCallback : Prop :=
  ∀ (p : Pins) (s : State) (R : RegDesc), s.phase = .hold → s.cnt = 0 → s.opv = true → s.errf = false →
    (s.op = .modify ∨ s.op = .modifyReread) → s.stage = .frame1 → s.cfg.reg? s.reg = some R →
    (∀ v0 v1 : RegVal, decodeReg R s.rply = .ok v0 → valOperand R p.modRes = .ok v1 →
      s.modArg = some v0
      ∧ tick p s
          = .next { s with phase := .idle, val := v1, trace := s.trace ++ [.delay s.cfg.tCsHighMinNs] })
    ∧ (∀ v0 : RegVal, decodeReg R s.rply = .ok v0 →
      (p.modRes.codes.toNat < 2 ^ codesWidth R.fields →
        validCodes R.fields (unpackCodes R.fields p.modRes.codes) = false → tick p s = .refused .noSuchMember)
      ∧ (2 ^ codesWidth R.fields ≤ p.modRes.codes.toNat → tick p s = .refused .operandTooWide))
    ∧ (∀ d : DecodeError, decodeReg R s.rply = .error d →
      s.modArg = none
      ∧ tick p s
          = .next { s with
              phase := .idle, opv := false, stage := .none, trace := s.trace ++ [.delay s.cfg.tCsHighMinNs],
              rspDrv := some (.errDriver (.decode d)) })

/-- The two delay counts never undercut the minimums (R5, R129): `N` clocks of `T_CLK_NS` are at least the minimum, and
at least one clock. -/
def Obligations.DelayCountsKeepMinimums : Prop :=
  ∀ p : Params, p.wf = true →
    p.tCsSetupMinNs ≤ p.nSetup * p.tClkNs ∧ p.tCsHighMinNs ≤ p.nHigh * p.tClkNs ∧ 1 ≤ p.nSetup ∧ 1 ≤ p.nHigh

/-- R109, R153: while the transport does not answer, the block stays in `SEND` or `RECV` with chip-select low, for any
number of clocks and whatever the host presents: there is no time-out. Every clock completes if no pure operation is
presented; with one, whose operands may be outside the contract, the same holds of every next state. Beyond the listed
pins the pins are quiet, which is the model's (log entry 3). -/
def Obligations.NoTimeout : Prop :=
  ∀ (s : State) (k : Nat), s.cfg.wf = true → s.csN = false → (s.phase = .send ∨ s.phase = .recv) →
    (∀ p ∈ s.pins, p.rst = false ∧ (s.phase = .send → p.txDone = false) ∧ (s.phase = .recv → p.rxDone = false)) →
    ((∀ p ∈ s.pins, ∀ q, p.req = some q → Request.asksDriver q = true) → ∃ t : State, runFor k s = .next t)
    ∧ (∀ t : State, runFor k s = .next t →
        t.phase = s.phase ∧ t.csN = false ∧ t.trace = s.trace ∧ t.cmd = s.cmd ∧ t.rspDrv = (if k = 0 then s.rspDrv else none))

/-- The outputs that are functions of the state (R17, R19, R64, R130), and the status code of every result (R61, R120,
R123): `busy` by its rule, `cs_n`, the two transport requests, never both, and neither while chip-select is high. -/
def Obligations.OutputsFollowState : Prop :=
  (∀ s : State,
    (s.busy = true ↔ s.opv = true ∨ s.phase ≠ .idle) ∧ s.reqReady = !s.busy ∧ s.csPin = s.csN
    ∧ (s.txReq = true ↔ s.phase = .send) ∧ (s.rxReq = true ↔ s.phase = .recv) ∧ ¬(s.txReq = true ∧ s.rxReq = true)
    ∧ (SeqInv s → s.csPin = true → s.txReq = false ∧ s.rxReq = false))
  ∧ (∀ (a : Addr) (v : RegVal) (w : Word) (c : CmdWord),
    (Response.okAddress a).status = 0#2 ∧ (Response.okValue v).status = 0#2 ∧ (Response.okWord w).status = 0#2
    ∧ (Response.okField w).status = 0#2 ∧ (Response.okCommand c).status = 0#2)
  ∧ (∀ (x : FramingError) (e : Nat) (d : DecodeError),
    (Response.errFraming x).status = 1#2 ∧ (Response.errTransport e).status = 2#2 ∧ (Response.errDecode d).status = 3#2
    ∧ (Response.errDriver (.framing x)).status = 1#2 ∧ (Response.errDriver (.transport e)).status = 2#2
    ∧ (Response.errDriver (.decode d)).status = 3#2)
  ∧ (∀ r : Response, r.ports.status = r.status)
  ∧ (∀ (k : Nat) (c : Word), (Response.errDecode (.invalidFieldValue k c)).ports.errField = some k
    ∧ (Response.errDecode (.invalidFieldValue k c)).ports.errValue = some c
    ∧ (Response.errDriver (.decode (.invalidFieldValue k c))).ports.errField = some k
    ∧ (Response.errDriver (.decode (.invalidFieldValue k c))).ports.errValue = some c)
  ∧ (∀ e : Nat, (Response.errTransport e).ports.terr = some e
    ∧ (Response.errDriver (.transport e)).ports.terr = some e)

/-! ## Invariants and whole-machine rules -/

/-- Every step keeps the sequencer's invariant (R16 to R18, R21, R108). -/
def Obligations.StepKeepsSeqInv : Prop :=
  ∀ s t : State, SeqInv s → step s = .next t → SeqInv t

/-- It holds at reset. -/
def Obligations.ResetMeetsSeqInv : Prop := SeqInv State.reset ∧ TraceShape State.reset

/-- Every step keeps the order of the boundary events: chip-select edges alternate, between them one Send and at most one
Receive after it, each delay at its place, only words the framer makes (R100, R105, R95, R114). The
clock an event is recorded in, and the mark by which a reset cuts a frame short, are the model's (log entry 5). -/
def Obligations.StepKeepsTraceShape : Prop :=
  ∀ s t : State, SeqInv s → TraceShape s → step s = .next t → TraceShape t

/-- The fault of the model is never met: with the invariant, no step faults (log entry 21). -/
def Obligations.NoFaultUnderSeqInv : Prop :=
  ∀ (s : State) (f : Fault), SeqInv s → step s ≠ .fault f

/-- A driver result, success or error, is presented only with chip-select high, the frame over and the block ready for the
next operation; nothing is sticky (R105 item f, R126, R127). -/
def Obligations.ResultOnlyAfterChipSelectHigh : Prop :=
  ∀ s t : State, SeqInv s → step s = .next t → t.rspDrv ≠ none →
    t.csN = true ∧ t.phase = .idle ∧ t.opv = false ∧ t.stage = .none ∧ t.busy = false

/-- No step changes the parameters or the register table (R10, R23). -/
def Obligations.StepKeepsParameters : Prop :=
  ∀ s t : State, step s = .next t → t.cfg = s.cfg

/-- R21: without a reset `S.PHASE` stays or moves one way round, with the one shortcut from `SEND` to `RELEASE`; and
`S.STAGE` stays, moves to the next frame, or returns to `NONE`. -/
def Obligations.PhaseAndStageOrder : Prop :=
  ∀ s t : State, SeqInv s → s.nextPins.rst = false → step s = .next t →
    (t.phase = s.phase
      ∨ (s.phase, t.phase) ∈ [(Phase.idle, Phase.setup), (.setup, .send), (.send, .recv), (.send, .release),
          (.recv, .release), (.release, .hold), (.hold, .idle)])
    ∧ (t.stage = s.stage ∨ t.stage = .none
      ∨ (s.stage, t.stage) ∈ [(Stage.none, Stage.frame1), (.frame1, .frame2), (.frame2, .frame3)])

/-- U10, R25: what the six unspecified latches hold when no operation is in flight can never be observed. Two states that
differ only there give, after any number of clocks with any pins, the same responses, the same trace and the same
outputs, or stop for the same reason. So no run shows the values the model chose for them
at reset (log entry 2). -/
def Obligations.UnspecifiedLatchesUnobservable : Prop :=
  ∀ (s : State) (o : HostOp) (r : RegIdx) (c w : Word) (e : Nat) (v : RegVal) (k : Nat),
    s.opv = false → s.phase.framed = false →
    match runFor k s, runFor k { s with op := o, reg := r, cmd := c, rply := w, terr := e, val := v } with
    | .next t, .next t' =>
      t.rspPure = t'.rspPure ∧ t.rspDrv = t'.rspDrv ∧ t.trace = t'.trace ∧ t.phase = t'.phase ∧ t.csN = t'.csN
        ∧ t.cnt = t'.cnt ∧ t.busy = t'.busy ∧ t.stage = t'.stage ∧ (t.txReq = true → t.txWord = t'.txWord)
        ∧ t.modArg = t'.modArg
    | .fault f, .fault f' => f = f'
    | .refused x, .refused x' => x = x'
    | _, _ => False

/-! ## The clocked block does what section 1 and section 3 of spec/42_driver.md say -/

/-- EXECUTE, RD and WR, clock after clock, for every answer of the transport and every delay before it: after the frame's
clocks the trace has grown by exactly the events of R100, the result is R100's, and the block is ready again. That
a bare wire word is an EXECUTE is the model's reading (log entry 8). -/
def Obligations.ExecuteRefinesSource : Prop :=
  ∀ (i : Instr) (c : CmdWord) (s : State) (x : FrameIn) (mr : ValPort) (rest : List Pins),
    (i = .execute c ∨ (∃ a, i = .rd a ∧ c = makeRead a)
      ∨ (∃ a d, i = .wr a d ∧ c = { kind := .write, address := a, payload := d })) →
    c.constructible = true → s.cfg.wf = true → s.busy = false → x.ans.fits s.cfg →
    s.pins = reqPins i :: framePins s.cfg mr x ++ rest →
    ∃ t : State, runFor (1 + (framePins s.cfg mr x).length) s = .next t
      ∧ t.trace = s.trace ++ (srcExecute s.cfg c x.ans).1
      ∧ t.rspDrv = some (rspOfExecute (srcExecute s.cfg c x.ans).2)
      ∧ t.busy = false ∧ t.csN = true ∧ t.pins = rest

/-- READ, clock after clock (R110). -/
def Obligations.ReadRefinesSource : Prop :=
  ∀ (r : RegIdx) (R : RegDesc) (s : State) (x : FrameIn) (mr : ValPort) (rest : List Pins),
    s.cfg.wf = true → s.cfg.reg? r = some R → s.busy = false → x.ans.fits s.cfg →
    s.pins = reqPins (.read r) :: framePins s.cfg mr x ++ rest →
    ∃ t : State, runFor (1 + (framePins s.cfg mr x).length) s = .next t
      ∧ t.trace = s.trace ++ (srcRead s.cfg R x.ans).1
      ∧ t.rspDrv = some (rspOfValue (srcRead s.cfg R x.ans).2)
      ∧ t.busy = false ∧ t.csN = true ∧ t.pins = rest

/-- WRITE, clock after clock (R111): a framing failure in the accepting clock, else one frame whose reply is the result,
not the value written (R145). -/
def Obligations.WriteRefinesSource : Prop :=
  ∀ (r : RegIdx) (R : RegDesc) (p : ValPort) (v : RegVal) (s : State) (x : FrameIn) (mr : ValPort) (rest : List Pins),
    s.cfg.wf = true → s.cfg.reg? r = some R → valOperand R p = .ok v → s.busy = false → s.csN = true →
    x.ans.fits s.cfg → s.pins = reqPins (.write r p) :: framePins s.cfg mr x ++ rest →
    ∃ (k : Nat) (t : State), runFor (k + 1) s = .next t
      ∧ (k = 0 ∨ k = (framePins s.cfg mr x).length)
      ∧ t.trace = s.trace ++ (srcWrite s.cfg R v x.ans).1
      ∧ t.rspDrv = some (rspOfWord (srcWrite s.cfg R v x.ans).2)
      ∧ t.busy = false ∧ t.csN = true

/-- MODIFY, clock after clock, for every function `f` on register values: whenever the callback answers `f` of the value
the read frame's reply decodes to, the trace and the result are R112's, the pre-write snapshot included (R146).
The model's: the callback is sampled where the read frame's HOLD ends (log entry 14), and one clock lies between the two
frames (log entry 13). -/
def Obligations.ModifyRefinesSource : Prop :=
  ∀ (r : RegIdx) (R : RegDesc) (f : RegVal → RegVal) (s : State) (x1 x2 : FrameIn) (mr1 mr2 : ValPort)
    (rest : List Pins),
    s.cfg.wf = true → s.cfg.reg? r = some R → s.busy = false → x1.ans.fits s.cfg → x2.ans.fits s.cfg →
    (∀ (w : Word) (v0 : RegVal), x1.ans.recv = .ok w → decodeReg R w = .ok v0 → valOperand R mr1 = .ok (f v0)) →
    s.pins = reqPins (.modify r) :: framePins s.cfg mr1 x1 ++ Pins.quiet :: framePins s.cfg mr2 x2 ++ rest →
    ∃ (k : Nat) (t : State), runFor k s = .next t
      ∧ k ≤ 2 + (framePins s.cfg mr1 x1).length + (framePins s.cfg mr2 x2).length
      ∧ t.trace = s.trace ++ (srcModify s.cfg R f x1.ans x2.ans).1
      ∧ t.rspDrv = some (rspOfValue (srcModify s.cfg R f x1.ans x2.ans).2)
      ∧ t.busy = false ∧ t.csN = true

/-- MODIFY_REREAD, clock after clock, in a build that has it (R113). The model's: the callback is sampled where the
read frame's HOLD ends (log entry 14), and one clock lies between frames (log entry 13). -/
def Obligations.ModifyRereadRefinesSource : Prop :=
  ∀ (r : RegIdx) (R : RegDesc) (f : RegVal → RegVal) (s : State) (x1 x2 x3 : FrameIn) (mr1 mr2 mr3 : ValPort)
    (rest : List Pins),
    s.cfg.wf = true → s.cfg.hasModifyReread = true → s.cfg.reg? r = some R → s.busy = false →
    x1.ans.fits s.cfg → x2.ans.fits s.cfg → x3.ans.fits s.cfg →
    (∀ (w : Word) (v0 : RegVal), x1.ans.recv = .ok w → decodeReg R w = .ok v0 → valOperand R mr1 = .ok (f v0)) →
    s.pins = reqPins (.modifyReread r) :: framePins s.cfg mr1 x1 ++ Pins.quiet :: framePins s.cfg mr2 x2
      ++ Pins.quiet :: framePins s.cfg mr3 x3 ++ rest →
    ∃ (k : Nat) (t : State), runFor k s = .next t
      ∧ k ≤ 3 + (framePins s.cfg mr1 x1).length + (framePins s.cfg mr2 x2).length + (framePins s.cfg mr3 x3).length
      ∧ t.trace = s.trace ++ (srcModifyReread s.cfg R f x1.ans x2.ans x3.ans).1
      ∧ t.rspDrv = some (rspOfValue (srcModifyReread s.cfg R f x1.ans x2.ans x3.ans).2)
      ∧ t.busy = false ∧ t.csN = true

/-- R114: how many frames each operation sends, and the wire word of each, for every outcome. -/
def Obligations.FramesOfOperations : Prop :=
  ∀ (p : Params) (R : RegDesc) (c : CmdWord) (v : RegVal) (f : RegVal → RegVal) (a1 a2 a3 : FrameAns),
    let rd : Word := toWire (makeRead R.address)
    sentWords (srcExecute p c a1).1 = [toWire c]
    ∧ sentWords (srcRead p R a1).1 = [rd]
    ∧ (∀ e, (srcWrite p R v a1).2 = .error (.framing e) → (srcWrite p R v a1).1 = [])
    ∧ (∀ u, makeWrite R.address (encodeReg R v) = .ok u → sentWords (srcWrite p R v a1).1 = [toWire u])
    ∧ (∀ e, (srcRead p R a1).2 = .error e → sentWords (srcModify p R f a1 a2).1 = [rd]
        ∧ sentWords (srcModifyReread p R f a1 a2 a3).1 = [rd])
    ∧ (∀ v0 e, (srcRead p R a1).2 = .ok v0 → makeWrite R.address (encodeReg R (f v0)) = .error e →
        sentWords (srcModify p R f a1 a2).1 = [rd] ∧ sentWords (srcModifyReread p R f a1 a2 a3).1 = [rd])
    ∧ (∀ v0 u, (srcRead p R a1).2 = .ok v0 → makeWrite R.address (encodeReg R (f v0)) = .ok u →
        sentWords (srcModify p R f a1 a2).1 = [rd, toWire u]
        ∧ (∀ e, (srcWrite p R (f v0) a2).2 = .error e → sentWords (srcModifyReread p R f a1 a2 a3).1 = [rd, toWire u])
        ∧ (∀ w, (srcWrite p R (f v0) a2).2 = .ok w → sentWords (srcModifyReread p R f a1 a2 a3).1 = [rd, toWire u, rd]))

/-- R148: a register whose reply had one of bits 15:11 set cannot be written by MODIFY with setters: whatever setters `f`
applies, the operation ends with the framing error after the read frame. -/
def Obligations.HighBitsMakeUnwritable : Prop :=
  ∀ (p : Params) (R : RegDesc) (f : RegVal → RegVal) (w : Word) (v0 : RegVal) (a1 a2 : FrameAns), R.wf = true →
    a1.send = .ok → a1.recv = .ok w → decodeReg R w = .ok v0 → w &&& 0xF800#16 ≠ 0#16 →
    (f v0).bits = v0.bits → (f v0).validFor R = true →
    (srcModify p R f a1 a2).2 = .error (.framing .payloadTooWide)
    ∧ sentWords (srcModify p R f a1 a2).1 = [toWire (makeRead R.address)]
end

