-- ==== Sys2Proof/Laws/Words.lean ====
section
/-! SUPPORT. Command words and host requests as numbers. -/

namespace Sys2Proof.Machine

/-- Every host code has its row back (R60). -/
theorem ofCode_code (o : HostOp) : HostOp.ofCode o.code = o := by cases o <;> rfl

/-- No bit of a host request is lost in its number (log entry 10). -/
theorem image_roundtrip (p : HostPorts) : HostPorts.ofNumber p.toNumber = p := by
  rcases p with ⟨op, reg, field, addr, word, cmd, ⟨bits, codes⟩, fval⟩
  have h1 := op.isLt; have h2 := reg.isLt; have h3 := field.isLt; have h4 := addr.isLt; have h5 := word.isLt
  have h6 := cmd.isLt; have h7 := bits.isLt; have h8 := codes.isLt; have h9 := fval.isLt
  simp only [HostPorts.ofNumber, HostPorts.toNumber, HostPorts.mk.injEq, ValPort.mk.injEq]
  refine ⟨?_, ?_, ?_, ?_, ?_, ?_, ⟨?_, ?_⟩, ?_⟩ <;>
    (apply BitVec.eq_of_toNat_eq; simp only [BitVec.toNat_ofNat]; omega)

/-- Bit 15 and the kind. -/
theorem kindOfBit_bit (k : Kind) : kindOfBit (BitVec.ofNat 1 k.bit) = k := by cases k <;> rfl

/-- The kind is one bit. -/
theorem kind_bit_lt (k : Kind) : k.bit < 2 := by cases k <;> decide

/-- The three parts of R50 are disjoint: parsing what was built gives the parts. -/
theorem parse_encodeCmd (c : CmdWord) : parseCmd (encodeCmd c) = c := by
  rcases c with ⟨k, a, p⟩
  have h1 := a.isLt; have h2 := p.isLt; have h3 := kind_bit_lt k
  have hk : (encodeCmd ⟨k, a, p⟩).extractLsb' 15 1 = BitVec.ofNat 1 k.bit := by
    apply BitVec.eq_of_toNat_eq; simp [encodeCmd, BitVec.extractLsb'_toNat, Nat.shiftRight_eq_div_pow]; omega
  simp only [parseCmd, CmdWord.mk.injEq, hk, kindOfBit_bit, true_and]
  constructor <;>
    (apply BitVec.eq_of_toNat_eq; simp [encodeCmd, BitVec.extractLsb'_toNat, Nat.shiftRight_eq_div_pow]; omega)

/-- A constructible command word passes `req_cmd` unchanged (D22). -/
theorem decodeCmd_encodeCmd (c : CmdWord) (h : c.constructible = true) : decodeCmd (encodeCmd c) = .ok c := by
  simp [decodeCmd, parse_encodeCmd, h]

/-- TO_WIRE by shifts (R92) is the sum of R94. -/
theorem toWire_eq (c : CmdWord) : toWire c = encodeCmd c := by
  rcases c with ⟨k, a, p⟩
  have h1 := a.isLt; have h2 := p.isLt
  have : a.setWidth 16 <<< 11 ||| p.setWidth 16 = (BitVec.ofNat 16 (2^11 * a.toNat + p.toNat)) := by
    apply BitVec.eq_of_toNat_eq
    rw [BitVec.toNat_or, BitVec.toNat_shiftLeft, BitVec.toNat_setWidth, BitVec.toNat_setWidth, Nat.shiftLeft_eq,
      Nat.mod_eq_of_lt (a := a.toNat) (by omega), Nat.mod_eq_of_lt (a := p.toNat) (by omega), Nat.mod_eq_of_lt (by omega), Nat.mul_comm,
      ← Nat.two_pow_add_eq_or_of_lt h2, BitVec.toNat_ofNat]; omega
  cases k
  · rw [toWire, kindBit, encodeCmd, BitVec.or_assoc, this]
    apply BitVec.eq_of_toNat_eq
    rw [BitVec.toNat_or, show ((1#16 <<< 15).toNat) = 2^15*1 from rfl, BitVec.toNat_ofNat, Nat.mod_eq_of_lt (by omega),
      ← Nat.two_pow_add_eq_or_of_lt (by omega), BitVec.toNat_ofNat]
    simp only [Kind.bit]; omega
  · rw [toWire, kindBit, encodeCmd, BitVec.or_assoc, this]; simp [Kind.bit]

/-- Masking the bits from `k` up. -/
theorem and_high (w : Word) (k : Nat) (hk : k ≤ 16) : w &&& (BitVec.ofNat 16 (2^16 - 2^k)) = BitVec.ofNat 16 (2^k * (w.toNat / 2^k)) := by
  have hw := w.isLt
  have h2 : 2^k ≤ 2^16 := Nat.pow_le_pow_right (by omega) hk
  have : 2^k * (w.toNat / 2^k) ≤ w.toNat := Nat.mul_div_le _ _
  apply BitVec.eq_of_getLsbD_eq
  intro i hi
  have e1 : (BitVec.ofNat 16 (2^16 - 2^k)).getLsbD i = decide (k ≤ i) := by
    have : 2^16 - 2^k = 2^k * (2^(16-k) - 1) := by
      rw [Nat.mul_sub, ← pow_add]; simp [hk]
    rw [this, BitVec.getLsbD_ofNat]
    rw [Nat.testBit_two_pow_mul]; simp [hi]; omega
  have e2 : (BitVec.ofNat 16 (2^k * (w.toNat / 2^k))).getLsbD i = (decide (k ≤ i) && w.getLsbD i) := by
    rw [BitVec.getLsbD_ofNat, Nat.testBit_two_pow_mul, Nat.testBit_div_two_pow]
    by_cases hki : k ≤ i
    · rw [show i - k + k = i by omega]; simp [hi, hki, BitVec.getLsbD]
    · simp [hki]
  rw [BitVec.getLsbD_and, e1, e2, Bool.and_comm]

/-- Bit 15 as a mask. -/
theorem and_8000 (w : Word) : (w &&& 0x8000#16 = 0#16) ↔ w.toNat < 32768 := by
  have h := w.isLt
  have := and_high w 15 (by omega)
  simp only [Nat.reducePow, Nat.reduceSub] at this
  rw [this, ← BitVec.toNat_inj]; simp; omega

/-- The condition of R53 as a mask. -/
theorem and_F800 (w : Word) : (w &&& 0xF800#16 = 0#16) ↔ w.toNat < 2048 := by
  have h := w.isLt
  have := and_high w 11 (by omega)
  simp only [Nat.reducePow, Nat.reduceSub] at this
  rw [this, ← BitVec.toNat_inj]; simp; omega

/-- Every word is the sum of its parts. -/
theorem encode_parse (w : Word) : encodeCmd (parseCmd w) = w := by
  have h := w.isLt
  apply BitVec.eq_of_toNat_eq
  have hk : (kindOfBit (w.extractLsb' 15 1)).bit = w.toNat / 2^15 := by
    have : w.extractLsb' 15 1 = BitVec.ofNat 1 (w.toNat / 2^15) := by
      apply BitVec.eq_of_toNat_eq; simp [BitVec.extractLsb'_toNat, Nat.shiftRight_eq_div_pow]
    rw [this]
    rcases (by omega : w.toNat / 2^15 = 0 ∨ w.toNat/2^15 = 1) with e | e <;> rw [e] <;> rfl
  simp [encodeCmd, parseCmd, hk, BitVec.extractLsb'_toNat, Nat.shiftRight_eq_div_pow]; omega

/-- Bit 15 as a bound on the number. -/
theorem parse_kind (w : Word) : (parseCmd w).kind = if w.toNat < 32768 then .write else .read := by
  have h := w.isLt
  have : w.extractLsb' 15 1 = BitVec.ofNat 1 (w.toNat / 2^15) := by
    apply BitVec.eq_of_toNat_eq; simp [BitVec.extractLsb'_toNat, Nat.shiftRight_eq_div_pow]
  split
  · rw [parseCmd, this, show w.toNat/2^15 = 0 by omega]; rfl
  · rw [parseCmd, this, show w.toNat/2^15 = 1 by omega]; rfl

/-- MAKE_WRITE below 2048 (R91). -/
theorem makeWrite_lt (a : Addr) (p : Word) (h : p.toNat < 2048) : makeWrite a p = .ok ⟨.write, a, p.setWidth 11⟩ := by
  have : p.extractLsb' 11 5 = 0#5 := by
    apply BitVec.eq_of_toNat_eq; simp [BitVec.extractLsb'_toNat, Nat.shiftRight_eq_div_pow]; omega
  simp [makeWrite, this]
  apply BitVec.eq_of_toNat_eq; simp [BitVec.extractLsb'_toNat]

/-- MAKE_WRITE from 2048 on (R91). -/
theorem makeWrite_ge (a : Addr) (p : Word) (h : 2048 ≤ p.toNat) : makeWrite a p = .error .payloadTooWide := by
  have hp := p.isLt
  have : p.extractLsb' 11 5 ≠ 0#5 := by
    intro h; have := congrArg BitVec.toNat h; simp [BitVec.extractLsb'_toNat, Nat.shiftRight_eq_div_pow] at this; omega
  simp [makeWrite, this]

/-- What MAKE_WRITE makes is constructible. -/
theorem makeWrite_constructible {a p c} (h : makeWrite a p = .ok c) : c.constructible = true := by
  unfold makeWrite at h; split at h
  · cases h
  · cases h; rfl

/-- The wire word of a read command. -/
theorem toWire_makeRead (a : Addr) : toWire (makeRead a) = 0x8000#16 ||| (a.setWidth 16 <<< 11) := by
  simp [toWire, makeRead, kindBit]

/-- The wire word of a write command. -/
theorem toWire_write (a : Addr) (d : Payload) : toWire ⟨.write, a, d⟩ = (a.setWidth 16 <<< 11) ||| d.setWidth 16 := by
  simp [toWire, kindBit]

end Sys2Proof.Machine
end

