-- ==== Sys2Proof/Laws/Fields.lean ====
section
/-! SUPPORT. Fields of a word, bit by bit, and the codec's loops. -/

namespace Sys2Proof.Machine

/-- Bit `i` of `mask(w)`. -/
theorem mask_bit (w i : Nat) (hi : i < 16) : (mask w).getLsbD i = decide (i < w) := by
  rw [mask, BitVec.getLsbD_ofNat]; simp [hi]

/-- Bit `i` of an extracted field (R56). -/
theorem extract_bit (raw : Word) (o w i : Nat) (h : o + w ≤ 16) :
    (extractField raw o w).getLsbD i = (decide (i < w) && raw.getLsbD (o + i)) := by
  unfold extractField
  rw [BitVec.getLsbD_ushiftRight, BitVec.getLsbD_and, BitVec.getLsbD_shiftLeft]
  by_cases hi : i < w
  · rw [show o + i - o = i by omega, mask_bit _ _ (by omega)]
    simp [hi, show o + i < 16 by omega]
  · by_cases h16 : o + i < 16
    · rw [show o + i - o = i by omega, mask_bit _ _ (by omega)]; simp [hi]
    · simp [hi, h16]

/-- A bound by a power of two, bit by bit. -/
theorem lt_two_pow_bit (c : Word) (w : Nat) : c.toNat < 2 ^ w ↔ ∀ i, w ≤ i → c.getLsbD i = false := by
  constructor
  · intro h i hi; exact Nat.testBit_lt_two_pow (lt_of_lt_of_le h (Nat.pow_le_pow_right (by omega) hi))
  · intro h; exact Nat.lt_pow_two_of_testBit _ h

/-- "`extract` returns a value in `[0, 2^w)`" (R56). -/
theorem extract_lt (raw : Word) (o w : Nat) (h : o + w ≤ 16) : (extractField raw o w).toNat < 2 ^ w := by
  rw [lt_two_pow_bit]; intro i hi; rw [extract_bit _ _ _ _ h]; simp; omega

/-- Bit `i` after an insert: "`insert` changes no bit outside the span" (R56). -/
theorem insert_bit (word c : Word) (o w i : Nat) (h : o + w ≤ 16) (hc : c.toNat < 2 ^ w) :
    (insertField word o w c).getLsbD i = if o ≤ i ∧ i < o + w then c.getLsbD (i - o) else word.getLsbD i := by
  unfold insertField
  rw [lt_two_pow_bit] at hc
  by_cases hi : i < 16
  · rw [BitVec.getLsbD_or, BitVec.getLsbD_and, BitVec.getLsbD_not, BitVec.getLsbD_shiftLeft, BitVec.getLsbD_shiftLeft]
    rw [mask_bit _ _ (by omega)]
    by_cases h1 : i < o
    · simp [hi, h1, show ¬ (o ≤ i) by omega]
    · by_cases h2 : i < o + w
      · simp [hi, h1, h2, show i - o < w by omega, show o ≤ i by omega]
      · simp [hi, h1, h2, show ¬ (i - o < w) by omega, hc (i - o) (by omega)]
  · rw [BitVec.getLsbD_of_ge _ _ (by omega), BitVec.getLsbD_of_ge _ _ (by omega : 16 ≤ i)]
    split
    · omega
    · rfl

/-- Words are equal when their bits are. -/
theorem word_ext {a b : Word} (h : ∀ i, a.getLsbD i = b.getLsbD i) : a = b :=
  BitVec.eq_of_getLsbD_eq fun i _ => h i

/-- Unpack after pack (R56). -/
theorem extract_insert_same (word c : Word) (o w : Nat) (h : o + w ≤ 16) (hc : c.toNat < 2 ^ w) :
    extractField (insertField word o w c) o w = c := by
  apply word_ext; intro i
  rw [extract_bit _ _ _ _ h, insert_bit _ _ _ _ _ h hc]
  by_cases hi : i < w
  · simp [hi]
  · rw [lt_two_pow_bit] at hc; simp [hi, hc i (by omega)]

/-- A legal code fits its field (R11). -/
theorem allows_lt (f : FieldDesc) (h : f.wf = true) (c : Word) (hc : f.allows c = true) : c.toNat < 2 ^ f.width := by
  simp only [FieldDesc.wf, FieldDesc.domainWf, Bool.and_eq_true, decide_eq_true_eq] at h
  unfold FieldDesc.allows at hc
  split at hc
  · simpa using hc
  · rename_i ms hd
    rw [hd] at h
    simp only [Bool.and_eq_true, List.all_eq_true, decide_eq_true_eq] at h
    simp only [List.any_eq_true, beq_iff_eq] at hc
    obtain ⟨m, hm, e⟩ := hc
    rw [← e]; exact h.2.1 m hm

/-- R10 item c of a checked field. -/
theorem fwf_bounds (f : FieldDesc) (h : f.wf = true) : 1 ≤ f.width ∧ f.offset + f.width ≤ 11 := by
  simp only [FieldDesc.wf, Bool.and_eq_true, decide_eq_true_eq] at h; exact h.1

/-- The Bool check of pairs, as a proposition. -/
theorem pairwiseB_iff {α} (r : α → α → Bool) (l : List α) : pairwiseB r l = true ↔ l.Pairwise (fun a b => r a b = true) := by
  induction l with
  | nil => simp [pairwiseB]
  | cons x xs ih => simp [pairwiseB, ih]

/-- Bit `i` lies in the span of a field. -/
def covers (f : FieldDesc) (i : Nat) : Prop := f.offset ≤ i ∧ i < f.offset + f.width

/-- R10 item b, bit by bit. -/
theorem disjoint_covers (f g : FieldDesc) (h : f.disjoint g = true) (i : Nat) (hf : covers f i) (hg : covers g i) : False := by
  simp only [FieldDesc.disjoint, Bool.or_eq_true, decide_eq_true_eq, covers] at *; omega

/-- ENCODE leaves a bit outside every field alone (R58, R72). -/
theorem encodeFields_out (fs : List FieldDesc) (cs : List Word) (word : Word) (i : Nat) (hwf : ∀ f ∈ fs, f.wf = true)
    (hv : validCodes fs cs = true) (hi : ∀ f ∈ fs, ¬ covers f i) : (encodeFields fs cs word).getLsbD i = word.getLsbD i := by
  induction fs generalizing cs word with
  | nil => simp [encodeFields]
  | cons f fs ih =>
    cases cs with
    | nil => simp [encodeFields]
    | cons c cs =>
      simp only [validCodes, Bool.and_eq_true] at hv
      have b := fwf_bounds f (hwf f (by simp))
      rw [encodeFields, ih _ _ (fun g hg => hwf g (by simp [hg])) hv.2 (fun g hg => hi g (by simp [hg])),
        insert_bit _ _ _ _ _ (by omega) (allows_lt f (hwf f (by simp)) c hv.1), if_neg (show ¬ (f.offset ≤ i ∧ i < f.offset + f.width) from hi f (by simp))]

/-- ENCODE puts a field's code in its span (R72). -/
theorem encodeFields_in (fs : List FieldDesc) (cs : List Word) (word : Word) (k : Nat) (f : FieldDesc) (c : Word) (i : Nat)
    (hwf : ∀ f ∈ fs, f.wf = true) (hp : fs.Pairwise (fun a b => a.disjoint b = true))
    (hv : validCodes fs cs = true) (hf : fs[k]? = some f) (hc : cs[k]? = some c) (hi : covers f i) :
    (encodeFields fs cs word).getLsbD i = c.getLsbD (i - f.offset) := by
  induction fs generalizing cs word k with
  | nil => simp at hf
  | cons g fs ih =>
    cases cs with
    | nil => simp at hc
    | cons d cs =>
      simp only [validCodes, Bool.and_eq_true] at hv
      rw [List.pairwise_cons] at hp
      rw [encodeFields]
      cases k with
      | zero =>
        simp only [List.getElem?_cons_zero, Option.some.injEq] at hf hc
        subst hf hc
        have b := fwf_bounds g (hwf g (by simp))
        rw [encodeFields_out _ _ _ _ (fun g hg => hwf g (by simp [hg])) hv.2
          (fun h hh hcov => disjoint_covers g h (hp.1 h hh) i hi hcov),
          insert_bit _ _ _ _ _ (by omega) (allows_lt g (hwf g (by simp)) d hv.1)]
        exact if_pos hi
      | succ k =>
        exact ih cs _ k (fun g hg => hwf g (by simp [hg])) hp.2 hv.2 (by simpa using hf) (by simpa using hc)

/-- The checks of R10 on a descriptor. -/
theorem rwf (R : RegDesc) (h : R.wf = true) : (∀ f ∈ R.fields, f.wf = true) ∧ R.fields.Pairwise (fun a b => a.disjoint b = true) := by
  simp only [RegDesc.wf, Bool.and_eq_true, pairwiseB_iff, List.all_eq_true] at h; exact h

/-- R14, index by index. -/
theorem validCodes_iff (fs : List FieldDesc) (cs : List Word) : validCodes fs cs = true ↔
    fs.length = cs.length ∧ ∀ (k : Nat) (f : FieldDesc) (c : Word), fs[k]? = some f → cs[k]? = some c → f.allows c = true := by
  induction fs generalizing cs with
  | nil => cases cs <;> simp [validCodes]
  | cons f fs ih =>
    cases cs with
    | nil => simp [validCodes]
    | cons c cs =>
      simp only [validCodes, Bool.and_eq_true, ih, List.length_cons, Nat.add_right_cancel_iff]
      constructor
      · rintro ⟨h1, h2, h3⟩
        refine ⟨h2, fun k g d hg hd => ?_⟩
        cases k with
        | zero => simp at hg hd; subst hg hd; exact h1
        | succ k => exact h3 k g d (by simpa using hg) (by simpa using hd)
      · rintro ⟨h2, h3⟩
        exact ⟨h3 0 f c rfl rfl, h2, fun k g d hg hd => h3 (k+1) g d (by simpa using hg) (by simpa using hd)⟩

/-- A field of an encoded value reads as its code. -/
theorem extract_encode (R : RegDesc) (h : R.wf = true) (v : RegVal) (hv : v.validFor R = true) (k : Nat) (f : FieldDesc) (c : Word)
    (hf : R.fields[k]? = some f) (hc : v.codes[k]? = some c) : extractField (encodeReg R v) f.offset f.width = c := by
  obtain ⟨h1, h2⟩ := rwf R h
  have hfm := List.mem_of_getElem? hf
  have b := fwf_bounds f (h1 f hfm)
  have ha := ((validCodes_iff _ _).1 hv).2 k f c hf hc
  have hlt := allows_lt f (h1 f hfm) c ha
  apply word_ext; intro i
  rw [extract_bit _ _ _ _ (by omega)]
  by_cases hi : i < f.width
  · rw [encodeReg, encodeFields_in _ _ _ k f c _ h1 h2 hv hf hc ⟨by omega, by omega⟩]; simp [hi]
  · rw [lt_two_pow_bit] at hlt; simp [hi, hlt i (by omega)]

/-- An opaque bit of an encoded value is the snapshot's (R58). -/
theorem encode_out (R : RegDesc) (h : R.wf = true) (v : RegVal) (hv : v.validFor R = true) (i : Nat)
    (hi : ∀ f ∈ R.fields, ¬ covers f i) : (encodeReg R v).getLsbD i = v.bits.getLsbD i :=
  encodeFields_out _ _ _ _ (rwf R h).1 hv hi

/-- DECODE with every pattern legal. -/
theorem decodeFields_ok (raw : Word) (k : Nat) (fs : List FieldDesc) (h : ∀ f ∈ fs, f.allows (extractField raw f.offset f.width) = true) :
    decodeFields raw k fs = .ok (fs.map fun f => extractField raw f.offset f.width) := by
  induction fs generalizing k with
  | nil => rfl
  | cons f fs ih => simp [decodeFields, h f (by simp), ih (k+1) (fun g hg => h g (by simp [hg])), Except.map]

/-- DECODE with a first undefined pattern (D7). -/
theorem decodeFields_bad (raw : Word) (n k : Nat) (fs : List FieldDesc) (f : FieldDesc) (hf : fs[k]? = some f)
    (hb : f.allows (extractField raw f.offset f.width) = false)
    (hg : ∀ (j : Nat) (g : FieldDesc), j < k → fs[j]? = some g → g.allows (extractField raw g.offset g.width) = true) :
    decodeFields raw n fs = .error (.invalidFieldValue (n + k) (extractField raw f.offset f.width)) := by
  induction fs generalizing k n with
  | nil => simp at hf
  | cons g fs ih =>
    cases k with
    | zero => simp at hf; subst hf; simp [decodeFields, hb]
    | succ k =>
      have := ih (n+1) k (by simpa using hf) (fun j g hj hg' => hg (j+1) g (by omega) (by simpa using hg'))
      simp [decodeFields, hg 0 g (by omega) rfl, this, Except.map]; omega

/-- DECODE has no third outcome. -/
theorem decodeFields_cases (raw : Word) (n : Nat) (fs : List FieldDesc) :
    (∀ f ∈ fs, f.allows (extractField raw f.offset f.width) = true) ∨
    ((∃ f ∈ fs, f.allows (extractField raw f.offset f.width) = false) ∧ ∃ e, decodeFields raw n fs = .error e) := by
  induction fs generalizing n with
  | nil => simp
  | cons f fs ih =>
    by_cases h : f.allows (extractField raw f.offset f.width) = true
    · rcases ih (n+1) with h' | ⟨⟨g, hg, hb⟩, e, he⟩
      · left; simpa [h] using h'
      · right; exact ⟨⟨g, by simp [hg], hb⟩, e, by simp [decodeFields, h, he, Except.map]⟩
    · right; simp at h; exact ⟨⟨f, by simp, h⟩, _, by simp [decodeFields, h]; rfl⟩

/-- DECODE with every pattern legal (R71). -/
theorem decodeReg_ok (R : RegDesc) (raw : Word) (h : ∀ f ∈ R.fields, f.allows (extractField raw f.offset f.width) = true) :
    decodeReg R raw = .ok ⟨raw, R.fields.map fun f => extractField raw f.offset f.width⟩ := by
  simp [decodeReg, decodeFields_ok _ _ _ h, Except.map]

/-- All that a successful DECODE says (R71). -/
theorem decodeReg_ok_inv (R : RegDesc) (raw : Word) (v : RegVal) (h : decodeReg R raw = .ok v) :
    (∀ f ∈ R.fields, f.allows (extractField raw f.offset f.width) = true) ∧ v = ⟨raw, R.fields.map fun f => extractField raw f.offset f.width⟩ := by
  rcases decodeFields_cases raw 0 R.fields with h' | ⟨_, e, he⟩
  · exact ⟨h', by rw [decodeReg_ok _ _ h'] at h; cases h; rfl⟩
  · simp [decodeReg, he, Except.map] at h

/-- All that an accepted register value operand says (R14, R64). -/
theorem valOperand_ok (R : RegDesc) (p : ValPort) (v : RegVal) (h : valOperand R p = .ok v) : v.bits = p.bits ∧ v.validFor R = true := by
  unfold valOperand at h
  split at h
  · split at h
    · cases h; exact ⟨rfl, by assumption⟩
    · cases h
  · cases h

/-- A setter keeps R14. -/
theorem validCodes_set (fs : List FieldDesc) (cs : List Word) (k : Nat) (f : FieldDesc) (x : Word) (h : validCodes fs cs = true)
    (hf : fs[k]? = some f) (hx : f.allows x = true) : validCodes fs (cs.set k x) = true := by
  rw [validCodes_iff] at *
  refine ⟨by simp [h.1], fun j g c hg hc => ?_⟩
  by_cases hj : j = k
  · subst hj; rw [List.getElem?_set] at hc; simp at hc; rw [hf] at hg; cases hg; rw [← hc.2]; exact hx
  · rw [List.getElem?_set_ne (by omega)] at hc; exact h.2 j g c hg hc

/-- DECODE gives a register value (R14). -/
theorem decode_valid (R : RegDesc) (raw : Word) (v : RegVal) (hd : decodeReg R raw = .ok v) : v.validFor R = true := by
  obtain ⟨ha, rfl⟩ := decodeReg_ok_inv R raw v hd
  simp only [RegVal.validFor]
  rw [validCodes_iff]; refine ⟨by simp, fun k f c hf hc => ?_⟩
  simp [hf] at hc; subst hc; exact ha f (List.mem_of_getElem? hf)

/-- A setter and ENCODE: one insert at the field (R56, R74). -/
theorem set_bit (R : RegDesc) (hw : R.wf = true) (v : RegVal) (hv : v.validFor R = true) (k : Nat) (f : FieldDesc) (x : Word)
   (hf : R.fields[k]? = some f) (hx : f.allows x = true) : encodeReg R (v.setCode k x) = insertField (encodeReg R v) f.offset f.width x := by
  obtain ⟨h1, h2⟩ := rwf R hw
  have hfm := List.mem_of_getElem? hf
  have b := fwf_bounds f (h1 f hfm)
  have hlt := allows_lt f (h1 f hfm) x hx
  have hl := ((validCodes_iff _ _).1 hv).1
  have hk : k < R.fields.length := (List.getElem?_eq_some_iff.1 hf).1
  have hv' : (v.setCode k x).validFor R = true := validCodes_set _ _ _ f _ hv hf hx
  apply word_ext; intro i
  rw [insert_bit _ _ _ _ _ (by omega) hlt]
  by_cases hi : ∀ g ∈ R.fields, ¬ covers g i
  · rw [encode_out R hw _ hv' i hi, encode_out R hw v hv i hi, if_neg (show ¬ (f.offset ≤ i ∧ i < f.offset + f.width) from hi f hfm)]; rfl
  · simp only [not_forall, not_not] at hi
    obtain ⟨g, hg, hc⟩ := hi
    obtain ⟨j, hj⟩ := List.mem_iff_getElem?.1 hg
    have hjl : j < R.fields.length := (List.getElem?_eq_some_iff.1 hj).1
    by_cases hjk : j = k
    · subst hjk; rw [hf] at hj; cases hj
      rw [encodeReg, encodeFields_in _ _ _ j f x i h1 h2 hv' hf (by simp [RegVal.setCode, ← hl, hjl]) hc, if_pos (show (f.offset ≤ i ∧ i < f.offset + f.width) from hc)]
    · have : ¬ covers f i := by
        intro hcf
        rw [List.pairwise_iff_getElem] at h2
        rcases Nat.lt_or_gt_of_ne hjk with h | h
        · have := h2 j k hjl hk h
          rw [List.getElem?_eq_getElem hjl] at hj; rw [List.getElem?_eq_getElem hk] at hf; cases hj; cases hf
          exact disjoint_covers _ _ this i hc hcf
        · have := h2 k j hk hjl h
          rw [List.getElem?_eq_getElem hjl] at hj; rw [List.getElem?_eq_getElem hk] at hf; cases hj; cases hf
          exact disjoint_covers _ _ this i hcf hc
      rw [if_neg (show ¬ (f.offset ≤ i ∧ i < f.offset + f.width) from this)]
      have hcj : v.codes[j]? = some (v.codes[j]'(by omega)) := List.getElem?_eq_getElem _
      rw [encodeReg, encodeFields_in _ _ _ j g _ i h1 h2 hv' hj (by rw [RegVal.setCode, List.getElem?_set_ne (by omega)]; exact hcj) hc,
        encodeReg, encodeFields_in _ _ _ j g _ i h1 h2 hv hj hcj hc]

end Sys2Proof.Machine
end

