-- ==== Sys2Proof/Laws/State.lean ====
section
/-! SUPPORT. One lemma per field per update of State, so that no later proof unfolds a record update. -/

namespace Sys2Proof.Machine

@[simp] theorem State.emit_cfg (s : State) (e : Event) : (s.emit e).cfg = s.cfg := rfl
@[simp] theorem State.emit_phase (s : State) (e : Event) : (s.emit e).phase = s.phase := rfl
@[simp] theorem State.emit_csN (s : State) (e : Event) : (s.emit e).csN = s.csN := rfl
@[simp] theorem State.emit_cnt (s : State) (e : Event) : (s.emit e).cnt = s.cnt := rfl
@[simp] theorem State.emit_opv (s : State) (e : Event) : (s.emit e).opv = s.opv := rfl
@[simp] theorem State.emit_op (s : State) (e : Event) : (s.emit e).op = s.op := rfl
@[simp] theorem State.emit_reg (s : State) (e : Event) : (s.emit e).reg = s.reg := rfl
@[simp] theorem State.emit_stage (s : State) (e : Event) : (s.emit e).stage = s.stage := rfl
@[simp] theorem State.emit_cmd (s : State) (e : Event) : (s.emit e).cmd = s.cmd := rfl
@[simp] theorem State.emit_rply (s : State) (e : Event) : (s.emit e).rply = s.rply := rfl
@[simp] theorem State.emit_errf (s : State) (e : Event) : (s.emit e).errf = s.errf := rfl
@[simp] theorem State.emit_terr (s : State) (e : Event) : (s.emit e).terr = s.terr := rfl
@[simp] theorem State.emit_val (s : State) (e : Event) : (s.emit e).val = s.val := rfl
@[simp] theorem State.emit_pins (s : State) (e : Event) : (s.emit e).pins = s.pins := rfl
@[simp] theorem State.emit_rspPure (s : State) (e : Event) : (s.emit e).rspPure = s.rspPure := rfl
@[simp] theorem State.emit_rspDrv (s : State) (e : Event) : (s.emit e).rspDrv = s.rspDrv := rfl
@[simp] theorem State.emit_trace (s : State) (e : Event) : (s.emit e).trace = s.trace ++ [e] := rfl

@[simp] theorem State.clearStrobes_cfg (s : State) : (s.clearStrobes).cfg = s.cfg := rfl
@[simp] theorem State.clearStrobes_phase (s : State) : (s.clearStrobes).phase = s.phase := rfl
@[simp] theorem State.clearStrobes_csN (s : State) : (s.clearStrobes).csN = s.csN := rfl
@[simp] theorem State.clearStrobes_cnt (s : State) : (s.clearStrobes).cnt = s.cnt := rfl
@[simp] theorem State.clearStrobes_opv (s : State) : (s.clearStrobes).opv = s.opv := rfl
@[simp] theorem State.clearStrobes_op (s : State) : (s.clearStrobes).op = s.op := rfl
@[simp] theorem State.clearStrobes_reg (s : State) : (s.clearStrobes).reg = s.reg := rfl
@[simp] theorem State.clearStrobes_stage (s : State) : (s.clearStrobes).stage = s.stage := rfl
@[simp] theorem State.clearStrobes_cmd (s : State) : (s.clearStrobes).cmd = s.cmd := rfl
@[simp] theorem State.clearStrobes_rply (s : State) : (s.clearStrobes).rply = s.rply := rfl
@[simp] theorem State.clearStrobes_errf (s : State) : (s.clearStrobes).errf = s.errf := rfl
@[simp] theorem State.clearStrobes_terr (s : State) : (s.clearStrobes).terr = s.terr := rfl
@[simp] theorem State.clearStrobes_val (s : State) : (s.clearStrobes).val = s.val := rfl
@[simp] theorem State.clearStrobes_pins (s : State) : (s.clearStrobes).pins = s.pins := rfl
@[simp] theorem State.clearStrobes_rspPure (s : State) : (s.clearStrobes).rspPure = none := rfl
@[simp] theorem State.clearStrobes_rspDrv (s : State) : (s.clearStrobes).rspDrv = none := rfl
@[simp] theorem State.clearStrobes_trace (s : State) : (s.clearStrobes).trace = s.trace := rfl

@[simp] theorem State.dropPins_cfg (s : State) : (s.dropPins).cfg = s.cfg := rfl
@[simp] theorem State.dropPins_phase (s : State) : (s.dropPins).phase = s.phase := rfl
@[simp] theorem State.dropPins_csN (s : State) : (s.dropPins).csN = s.csN := rfl
@[simp] theorem State.dropPins_cnt (s : State) : (s.dropPins).cnt = s.cnt := rfl
@[simp] theorem State.dropPins_opv (s : State) : (s.dropPins).opv = s.opv := rfl
@[simp] theorem State.dropPins_op (s : State) : (s.dropPins).op = s.op := rfl
@[simp] theorem State.dropPins_reg (s : State) : (s.dropPins).reg = s.reg := rfl
@[simp] theorem State.dropPins_stage (s : State) : (s.dropPins).stage = s.stage := rfl
@[simp] theorem State.dropPins_cmd (s : State) : (s.dropPins).cmd = s.cmd := rfl
@[simp] theorem State.dropPins_rply (s : State) : (s.dropPins).rply = s.rply := rfl
@[simp] theorem State.dropPins_errf (s : State) : (s.dropPins).errf = s.errf := rfl
@[simp] theorem State.dropPins_terr (s : State) : (s.dropPins).terr = s.terr := rfl
@[simp] theorem State.dropPins_val (s : State) : (s.dropPins).val = s.val := rfl
@[simp] theorem State.dropPins_pins (s : State) : (s.dropPins).pins = s.pins.tail := rfl
@[simp] theorem State.dropPins_rspPure (s : State) : (s.dropPins).rspPure = s.rspPure := rfl
@[simp] theorem State.dropPins_rspDrv (s : State) : (s.dropPins).rspDrv = s.rspDrv := rfl
@[simp] theorem State.dropPins_trace (s : State) : (s.dropPins).trace = s.trace := rfl

@[simp] theorem startFrame_cfg (st : Stage) (c : CmdWord) (s : State) : (startFrame st c s).cfg = s.cfg := rfl
@[simp] theorem startFrame_phase (st : Stage) (c : CmdWord) (s : State) : (startFrame st c s).phase = .setup := rfl
@[simp] theorem startFrame_csN (st : Stage) (c : CmdWord) (s : State) : (startFrame st c s).csN = false := rfl
@[simp] theorem startFrame_cnt (st : Stage) (c : CmdWord) (s : State) : (startFrame st c s).cnt = s.cfg.nSetup := rfl
@[simp] theorem startFrame_opv (st : Stage) (c : CmdWord) (s : State) : (startFrame st c s).opv = s.opv := rfl
@[simp] theorem startFrame_op (st : Stage) (c : CmdWord) (s : State) : (startFrame st c s).op = s.op := rfl
@[simp] theorem startFrame_reg (st : Stage) (c : CmdWord) (s : State) : (startFrame st c s).reg = s.reg := rfl
@[simp] theorem startFrame_stage (st : Stage) (c : CmdWord) (s : State) : (startFrame st c s).stage = st := rfl
@[simp] theorem startFrame_cmd (st : Stage) (c : CmdWord) (s : State) : (startFrame st c s).cmd = toWire c := rfl
@[simp] theorem startFrame_rply (st : Stage) (c : CmdWord) (s : State) : (startFrame st c s).rply = s.rply := rfl
@[simp] theorem startFrame_errf (st : Stage) (c : CmdWord) (s : State) : (startFrame st c s).errf = false := rfl
@[simp] theorem startFrame_terr (st : Stage) (c : CmdWord) (s : State) : (startFrame st c s).terr = s.terr := rfl
@[simp] theorem startFrame_val (st : Stage) (c : CmdWord) (s : State) : (startFrame st c s).val = s.val := rfl
@[simp] theorem startFrame_pins (st : Stage) (c : CmdWord) (s : State) : (startFrame st c s).pins = s.pins := rfl
@[simp] theorem startFrame_rspPure (st : Stage) (c : CmdWord) (s : State) : (startFrame st c s).rspPure = s.rspPure := rfl
@[simp] theorem startFrame_rspDrv (st : Stage) (c : CmdWord) (s : State) : (startFrame st c s).rspDrv = s.rspDrv := rfl
@[simp] theorem startFrame_trace (st : Stage) (c : CmdWord) (s : State) : (startFrame st c s).trace = s.trace ++ [.csLow] := rfl

@[simp] theorem acceptDriver_cfg (o : HostOp) (r : RegIdx) (c : CmdWord) (s : State) : (acceptDriver o r c s).cfg = s.cfg := rfl
@[simp] theorem acceptDriver_phase (o : HostOp) (r : RegIdx) (c : CmdWord) (s : State) : (acceptDriver o r c s).phase = .setup := rfl
@[simp] theorem acceptDriver_csN (o : HostOp) (r : RegIdx) (c : CmdWord) (s : State) : (acceptDriver o r c s).csN = false := rfl
@[simp] theorem acceptDriver_cnt (o : HostOp) (r : RegIdx) (c : CmdWord) (s : State) : (acceptDriver o r c s).cnt = s.cfg.nSetup := rfl
@[simp] theorem acceptDriver_opv (o : HostOp) (r : RegIdx) (c : CmdWord) (s : State) : (acceptDriver o r c s).opv = true := rfl
@[simp] theorem acceptDriver_op (o : HostOp) (r : RegIdx) (c : CmdWord) (s : State) : (acceptDriver o r c s).op = o := rfl
@[simp] theorem acceptDriver_reg (o : HostOp) (r : RegIdx) (c : CmdWord) (s : State) : (acceptDriver o r c s).reg = r := rfl
@[simp] theorem acceptDriver_stage (o : HostOp) (r : RegIdx) (c : CmdWord) (s : State) : (acceptDriver o r c s).stage = .frame1 := rfl
@[simp] theorem acceptDriver_cmd (o : HostOp) (r : RegIdx) (c : CmdWord) (s : State) : (acceptDriver o r c s).cmd = toWire c := rfl
@[simp] theorem acceptDriver_rply (o : HostOp) (r : RegIdx) (c : CmdWord) (s : State) : (acceptDriver o r c s).rply = s.rply := rfl
@[simp] theorem acceptDriver_errf (o : HostOp) (r : RegIdx) (c : CmdWord) (s : State) : (acceptDriver o r c s).errf = false := rfl
@[simp] theorem acceptDriver_terr (o : HostOp) (r : RegIdx) (c : CmdWord) (s : State) : (acceptDriver o r c s).terr = s.terr := rfl
@[simp] theorem acceptDriver_val (o : HostOp) (r : RegIdx) (c : CmdWord) (s : State) : (acceptDriver o r c s).val = s.val := rfl
@[simp] theorem acceptDriver_pins (o : HostOp) (r : RegIdx) (c : CmdWord) (s : State) : (acceptDriver o r c s).pins = s.pins := rfl
@[simp] theorem acceptDriver_rspPure (o : HostOp) (r : RegIdx) (c : CmdWord) (s : State) : (acceptDriver o r c s).rspPure = s.rspPure := rfl
@[simp] theorem acceptDriver_rspDrv (o : HostOp) (r : RegIdx) (c : CmdWord) (s : State) : (acceptDriver o r c s).rspDrv = s.rspDrv := rfl
@[simp] theorem acceptDriver_trace (o : HostOp) (r : RegIdx) (c : CmdWord) (s : State) : (acceptDriver o r c s).trace = s.trace ++ [.csLow] := rfl

@[simp] theorem endOp_cfg (r : Response) (s : State) : (endOp r s).cfg = s.cfg := rfl
@[simp] theorem endOp_phase (r : Response) (s : State) : (endOp r s).phase = s.phase := rfl
@[simp] theorem endOp_csN (r : Response) (s : State) : (endOp r s).csN = s.csN := rfl
@[simp] theorem endOp_cnt (r : Response) (s : State) : (endOp r s).cnt = s.cnt := rfl
@[simp] theorem endOp_opv (r : Response) (s : State) : (endOp r s).opv = false := rfl
@[simp] theorem endOp_op (r : Response) (s : State) : (endOp r s).op = s.op := rfl
@[simp] theorem endOp_reg (r : Response) (s : State) : (endOp r s).reg = s.reg := rfl
@[simp] theorem endOp_stage (r : Response) (s : State) : (endOp r s).stage = .none := rfl
@[simp] theorem endOp_cmd (r : Response) (s : State) : (endOp r s).cmd = s.cmd := rfl
@[simp] theorem endOp_rply (r : Response) (s : State) : (endOp r s).rply = s.rply := rfl
@[simp] theorem endOp_errf (r : Response) (s : State) : (endOp r s).errf = s.errf := rfl
@[simp] theorem endOp_terr (r : Response) (s : State) : (endOp r s).terr = s.terr := rfl
@[simp] theorem endOp_val (r : Response) (s : State) : (endOp r s).val = s.val := rfl
@[simp] theorem endOp_pins (r : Response) (s : State) : (endOp r s).pins = s.pins := rfl
@[simp] theorem endOp_rspPure (r : Response) (s : State) : (endOp r s).rspPure = s.rspPure := rfl
@[simp] theorem endOp_rspDrv (r : Response) (s : State) : (endOp r s).rspDrv = some r := rfl
@[simp] theorem endOp_trace (r : Response) (s : State) : (endOp r s).trace = s.trace := rfl

@[simp] theorem latchTransportError_cfg (e : Nat) (s : State) : (latchTransportError e s).cfg = s.cfg := rfl
@[simp] theorem latchTransportError_phase (e : Nat) (s : State) : (latchTransportError e s).phase = .release := rfl
@[simp] theorem latchTransportError_csN (e : Nat) (s : State) : (latchTransportError e s).csN = s.csN := rfl
@[simp] theorem latchTransportError_cnt (e : Nat) (s : State) : (latchTransportError e s).cnt = s.cnt := rfl
@[simp] theorem latchTransportError_opv (e : Nat) (s : State) : (latchTransportError e s).opv = s.opv := rfl
@[simp] theorem latchTransportError_op (e : Nat) (s : State) : (latchTransportError e s).op = s.op := rfl
@[simp] theorem latchTransportError_reg (e : Nat) (s : State) : (latchTransportError e s).reg = s.reg := rfl
@[simp] theorem latchTransportError_stage (e : Nat) (s : State) : (latchTransportError e s).stage = s.stage := rfl
@[simp] theorem latchTransportError_cmd (e : Nat) (s : State) : (latchTransportError e s).cmd = s.cmd := rfl
@[simp] theorem latchTransportError_rply (e : Nat) (s : State) : (latchTransportError e s).rply = s.rply := rfl
@[simp] theorem latchTransportError_errf (e : Nat) (s : State) : (latchTransportError e s).errf = true := rfl
@[simp] theorem latchTransportError_terr (e : Nat) (s : State) : (latchTransportError e s).terr = e := rfl
@[simp] theorem latchTransportError_val (e : Nat) (s : State) : (latchTransportError e s).val = s.val := rfl
@[simp] theorem latchTransportError_pins (e : Nat) (s : State) : (latchTransportError e s).pins = s.pins := rfl
@[simp] theorem latchTransportError_rspPure (e : Nat) (s : State) : (latchTransportError e s).rspPure = s.rspPure := rfl
@[simp] theorem latchTransportError_rspDrv (e : Nat) (s : State) : (latchTransportError e s).rspDrv = s.rspDrv := rfl
@[simp] theorem latchTransportError_trace (e : Nat) (s : State) : (latchTransportError e s).trace = s.trace := rfl

@[simp] theorem releaseFrame_cfg (s : State) : (releaseFrame s).cfg = s.cfg := rfl
@[simp] theorem releaseFrame_phase (s : State) : (releaseFrame s).phase = .hold := rfl
@[simp] theorem releaseFrame_csN (s : State) : (releaseFrame s).csN = true := rfl
@[simp] theorem releaseFrame_cnt (s : State) : (releaseFrame s).cnt = s.cfg.nHigh := rfl
@[simp] theorem releaseFrame_opv (s : State) : (releaseFrame s).opv = s.opv := rfl
@[simp] theorem releaseFrame_op (s : State) : (releaseFrame s).op = s.op := rfl
@[simp] theorem releaseFrame_reg (s : State) : (releaseFrame s).reg = s.reg := rfl
@[simp] theorem releaseFrame_stage (s : State) : (releaseFrame s).stage = s.stage := rfl
@[simp] theorem releaseFrame_cmd (s : State) : (releaseFrame s).cmd = s.cmd := rfl
@[simp] theorem releaseFrame_rply (s : State) : (releaseFrame s).rply = s.rply := rfl
@[simp] theorem releaseFrame_errf (s : State) : (releaseFrame s).errf = s.errf := rfl
@[simp] theorem releaseFrame_terr (s : State) : (releaseFrame s).terr = s.terr := rfl
@[simp] theorem releaseFrame_val (s : State) : (releaseFrame s).val = s.val := rfl
@[simp] theorem releaseFrame_pins (s : State) : (releaseFrame s).pins = s.pins := rfl
@[simp] theorem releaseFrame_rspPure (s : State) : (releaseFrame s).rspPure = s.rspPure := rfl
@[simp] theorem releaseFrame_rspDrv (s : State) : (releaseFrame s).rspDrv = s.rspDrv := rfl
@[simp] theorem releaseFrame_trace (s : State) : (releaseFrame s).trace = s.trace ++ [.csHigh] := rfl

@[simp] theorem resetState_cfg (s : State) : (resetState s).cfg = s.cfg := rfl
@[simp] theorem resetState_phase (s : State) : (resetState s).phase = .hold := rfl
@[simp] theorem resetState_csN (s : State) : (resetState s).csN = true := rfl
@[simp] theorem resetState_cnt (s : State) : (resetState s).cnt = s.cfg.nHigh := rfl
@[simp] theorem resetState_opv (s : State) : (resetState s).opv = false := rfl
@[simp] theorem resetState_op (s : State) : (resetState s).op = .address := rfl
@[simp] theorem resetState_reg (s : State) : (resetState s).reg = 0#4 := rfl
@[simp] theorem resetState_stage (s : State) : (resetState s).stage = .none := rfl
@[simp] theorem resetState_cmd (s : State) : (resetState s).cmd = 0#16 := rfl
@[simp] theorem resetState_rply (s : State) : (resetState s).rply = 0#16 := rfl
@[simp] theorem resetState_errf (s : State) : (resetState s).errf = false := rfl
@[simp] theorem resetState_terr (s : State) : (resetState s).terr = 0 := rfl
@[simp] theorem resetState_val (s : State) : (resetState s).val = { bits := 0#16, codes := [0#16, 0#16] } := rfl
@[simp] theorem resetState_pins (s : State) : (resetState s).pins = s.pins := rfl
@[simp] theorem resetState_rspPure (s : State) : (resetState s).rspPure = none := rfl
@[simp] theorem resetState_rspDrv (s : State) : (resetState s).rspDrv = none := rfl
@[simp] theorem resetState_trace (s : State) : (resetState s).trace = s.trace ++ [.rst] := rfl

@[simp] theorem makeReady_cfg (s : State) : (makeReady s).cfg = s.cfg := rfl
@[simp] theorem makeReady_phase (s : State) : (makeReady s).phase = .idle := rfl
@[simp] theorem makeReady_csN (s : State) : (makeReady s).csN = true := rfl
@[simp] theorem makeReady_cnt (s : State) : (makeReady s).cnt = 0 := rfl
@[simp] theorem makeReady_opv (s : State) : (makeReady s).opv = false := rfl
@[simp] theorem makeReady_op (s : State) : (makeReady s).op = s.op := rfl
@[simp] theorem makeReady_reg (s : State) : (makeReady s).reg = s.reg := rfl
@[simp] theorem makeReady_stage (s : State) : (makeReady s).stage = .none := rfl
@[simp] theorem makeReady_cmd (s : State) : (makeReady s).cmd = s.cmd := rfl
@[simp] theorem makeReady_rply (s : State) : (makeReady s).rply = s.rply := rfl
@[simp] theorem makeReady_errf (s : State) : (makeReady s).errf = s.errf := rfl
@[simp] theorem makeReady_terr (s : State) : (makeReady s).terr = s.terr := rfl
@[simp] theorem makeReady_val (s : State) : (makeReady s).val = s.val := rfl
@[simp] theorem makeReady_pins (s : State) : (makeReady s).pins = s.pins := rfl
@[simp] theorem makeReady_rspPure (s : State) : (makeReady s).rspPure = s.rspPure := rfl
@[simp] theorem makeReady_rspDrv (s : State) : (makeReady s).rspDrv = s.rspDrv := rfl
@[simp] theorem makeReady_trace (s : State) : (makeReady s).trace = s.trace := rfl

end Sys2Proof.Machine
end

