-- ==== Sys2Proof/Laws/Exec.lean ====
section
/-! SUPPORT. What each shared operation of the meanings can do, said once, and from it what `exec` can do. -/

namespace Sys2Proof.Machine

/-- An operand that let the meaning go on. -/
theorem onOk_next {α} {x : Except Refusal α} {k : α → Out} {t : State} (h : onOk x k = .next t) : ∃ a, x = .ok a ∧ k a = .next t := by
  cases x with
  | ok a => exact ⟨a, rfl, h⟩
  | error r => cases h

/-- A first half that let the clock go on. -/
theorem onNext_next {o : Out} {k t} (h : onNext o k = .next t) : ∃ u, o = .next u ∧ k u = .next t := by
  cases o with
  | next u => exact ⟨u, rfl, h⟩
  | fault f => cases h
  | refused r => cases h

/-- Nothing but the strobe of a pure response differs. -/
def PureShape (s t : State) : Prop := t = { s with rspPure := t.rspPure }

/-- All that `respondPure` can do. -/
theorem respondPure_shape {r s t} (h : respondPure r s = .next t) : PureShape s t := by
  cases h; rfl

/-- All that a setter can do. -/
theorem setField_shape {R p k x s t} (h : setField R p k x s = .next t) : PureShape s t := by
  obtain ⟨_, _, h⟩ := onOk_next h
  obtain ⟨_, _, h⟩ := onOk_next h
  obtain ⟨_, _, h⟩ := onOk_next h
  exact respondPure_shape h

/-- A setter whose operands are in the contract (R74). -/
theorem setField_ok (R : RegDesc) (p : ValPort) (v : RegVal) (k : FieldIdx) (f : FieldDesc) (x : BitVec 11) (s : State)
    (hw : R.wf = true) (hv : valOperand R p = .ok v) (hf : R.fields[k.toNat]? = some f) (hx : f.allows (x.setWidth 16) = true) :
    setField R p k x s = .next { s with rspPure := some (.okValue (v.setCode k.toNat (x.setWidth 16))) } := by
  have hlt := allows_lt f ((rwf R hw).1 f (List.mem_of_getElem? hf)) _ hx
  have hlt' : x.toNat < 2 ^ f.width := by simpa [Nat.mod_eq_of_lt (show x.toNat < 65536 by have := x.isLt; omega)] using hlt
  simp [setField, onOk, hv, fieldOperand, hf, codeOperand, hx, hlt', respondPure]

/-- All that `whenReady` can do. -/
theorem whenReady_next {s t : State} {o : Out} (h : whenReady s o = .next t) : (s.busy = true ∧ t = s) ∨ (s.busy = false ∧ o = .next t) := by
  unfold whenReady at h; cases hb : s.busy <;> simp [hb] at h
  · exact Or.inr ⟨rfl, h⟩
  · exact Or.inl ⟨rfl, h.symm⟩

/-- An accepted register operand is in REGTABLE. -/
theorem regOperand_ok {p r R} (h : regOperand p r = .ok R) : p.reg? r = some R := by
  unfold regOperand at h; split at h
  · cases h; assumption
  · cases h

/-- All that `exec` can do when it answers a next state. -/
inductive ExecCase (s : State) : State → Prop where
  | pure (t) (h : t = { s with rspPure := t.rspPure }) : ExecCase s t
  | framing (r) (hb : s.busy = false) : ExecCase s { s with rspDrv := some r }
  | accept (op r c) (hb : s.busy = false) (hc : c.constructible = true) (hop : stageLegal op .frame1 .setup = true)
      (ht : op ≠ .execute → (s.cfg.reg? r).isSome = true) (ho : op = .modifyReread → s.cfg.hasModifyReread = true) :
      ExecCase s (acceptDriver op r c s)

/-- All that accepting an EXECUTE can do. -/
theorem acceptExecute_case {c s t} (h : acceptExecute c s = .next t) : ExecCase s t := by
  rcases whenReady_next h with ⟨_, rfl⟩ | ⟨hb, h⟩
  · exact .pure _ rfl
  · split at h
    · cases h; exact .accept _ _ _ hb (by assumption) rfl (by simp) (by simp)
    · cases h

/-- All that accepting a read frame can do. -/
theorem acceptRead_case {op r s t} (hop : stageLegal op .frame1 .setup = true) (ho : op = .modifyReread → s.cfg.hasModifyReread = true)
    (h : acceptRead op r s = .next t) : ExecCase s t := by
  rcases whenReady_next h with ⟨_, rfl⟩ | ⟨hb, h⟩
  · exact .pure _ rfl
  · obtain ⟨R, hR, h⟩ := onOk_next h
    cases h; exact .accept _ _ _ hb rfl hop (by simp [regOperand_ok hR]) ho

/-- Every arm of `exec` is one of the three. -/
theorem exec_case (i : Instr) (s t : State) (h : exec i s = .next t) : ExecCase s t := by
  cases i with
  | rd a => exact acceptExecute_case h
  | wr a d => exact acceptExecute_case h
  | execute c => exact acceptExecute_case h
  | read r => exact acceptRead_case rfl (by simp) h
  | modify r => exact acceptRead_case rfl (by simp) h
  | modifyReread r =>
    simp only [exec, execModifyReread] at h; split at h
    · exact acceptRead_case rfl (fun _ => by assumption) h
    · cases h; exact .pure _ rfl
  | write r v =>
    rcases whenReady_next h with ⟨_, rfl⟩ | ⟨hb, h⟩
    · exact .pure _ rfl
    · obtain ⟨R, hR, h⟩ := onOk_next h
      obtain ⟨v, hv, h⟩ := onOk_next h
      split at h
      · rename_i c hc; cases h; exact .accept _ _ _ hb (makeWrite_constructible hc) rfl (by simp [regOperand_ok hR]) (by simp)
      · cases h; exact .framing _ hb
  | address r => obtain ⟨_, _, h⟩ := onOk_next h; exact .pure _ (respondPure_shape h)
  | decode r raw => obtain ⟨_, _, h⟩ := onOk_next h; split at h <;> exact .pure _ (respondPure_shape h)
  | encode r v => obtain ⟨_, _, h⟩ := onOk_next h; obtain ⟨_, _, h⟩ := onOk_next h; exact .pure _ (respondPure_shape h)
  | getField r v k =>
    obtain ⟨_, _, h⟩ := onOk_next h; obtain ⟨_, _, h⟩ := onOk_next h
    split at h
    · exact .pure _ (respondPure_shape h)
    · cases h
  | withField r v k x => obtain ⟨_, _, h⟩ := onOk_next h; exact .pure _ (setField_shape h)
  | makeRead a => exact .pure _ (respondPure_shape h)
  | makeWrite a p => simp only [exec, execMakeWrite] at h; split at h <;> exact .pure _ (respondPure_shape h)
  | toWire c =>
    simp only [exec, execToWire] at h; split at h
    · exact .pure _ (respondPure_shape h)
    · cases h
  | fromWire raw => exact .pure _ (respondPure_shape h)
  | reservedE => cases h; exact .pure _ rfl
  | reservedF => cases h; exact .pure _ rfl
  | withCommOption v x => exact .pure _ (setField_shape h)
  | withPwmMode v x => exact .pure _ (setField_shape h)
  | withWwFlag v j b => exact .pure _ (setField_shape h)

/-- On a busy block `exec` changes nothing but the strobe of a pure response. -/
theorem exec_case_busy {s t} (hb : s.busy = true) (h : ExecCase s t) : t = { s with rspPure := t.rspPure } := by
  cases h with
  | pure t h => exact h
  | framing r h => simp_all
  | accept => simp_all

end Sys2Proof.Machine
end

