-- ==== Sys2Proof/Laws/PerInstr.lean ====
section
/-! SUPPORT. Families of statements about the instruction as syntax, one lemma per constructor. -/

namespace Sys2Proof.Laws

/-- The form of a request an instruction is presented in: a bare wire word for the two rows of format WIRE16, and host
ports with the op code of its row of R60 for the others. -/
def RequestForm.code : Instr → Option (BitVec 4)
  | .rd _ | .wr _ _ => none
  | .address _ => some 0x0#4
  | .decode _ _ => some 0x1#4
  | .encode _ _ => some 0x2#4
  | .getField _ _ _ => some 0x3#4
  | .withField _ _ _ _ | .withCommOption _ _ | .withPwmMode _ _ | .withWwFlag _ _ _ => some 0x4#4
  | .makeRead _ => some 0x5#4
  | .makeWrite _ _ => some 0x6#4
  | .toWire _ => some 0x7#4
  | .fromWire _ => some 0x8#4
  | .execute _ => some 0x9#4
  | .read _ => some 0xA#4
  | .write _ _ => some 0xB#4
  | .modify _ => some 0xC#4
  | .modifyReread _ => some 0xD#4
  | .reservedE => some 0xE#4
  | .reservedF => some 0xF#4

/-- The op code of a request. -/
def RequestForm.ofRequest : Request → Option (BitVec 4)
  | .wire _ => none
  | .host p => some p.op

/-- The encoder presents every instruction with the code of its row of R60. -/
def RequestForm.Statement (i : Instr) : Prop := RequestForm.ofRequest (encode i) = RequestForm.code i

theorem RequestForm.rd (a : Addr) : RequestForm.Statement (.rd a) := rfl
theorem RequestForm.wr (a : Addr) (d : Payload) : RequestForm.Statement (.wr a d) := rfl
theorem RequestForm.address (r : RegIdx) : RequestForm.Statement (.address r) := rfl
theorem RequestForm.decode (r : RegIdx) (raw : Word) : RequestForm.Statement (.decode r raw) := rfl
theorem RequestForm.encode (r : RegIdx) (v : ValPort) : RequestForm.Statement (.encode r v) := rfl
theorem RequestForm.getField (r : RegIdx) (v : ValPort) (k : FieldIdx) : RequestForm.Statement (.getField r v k) := rfl
theorem RequestForm.withField (r : RegIdx) (v : ValPort) (k : FieldIdx) (x : BitVec 11) :
    RequestForm.Statement (.withField r v k x) := rfl
theorem RequestForm.makeRead (a : Addr) : RequestForm.Statement (.makeRead a) := rfl
theorem RequestForm.makeWrite (a : Addr) (p : Word) : RequestForm.Statement (.makeWrite a p) := rfl
theorem RequestForm.toWire (c : CmdWord) : RequestForm.Statement (.toWire c) := rfl
theorem RequestForm.fromWire (raw : Word) : RequestForm.Statement (.fromWire raw) := rfl
theorem RequestForm.execute (c : CmdWord) : RequestForm.Statement (.execute c) := rfl
theorem RequestForm.read (r : RegIdx) : RequestForm.Statement (.read r) := rfl
theorem RequestForm.write (r : RegIdx) (v : ValPort) : RequestForm.Statement (.write r v) := rfl
theorem RequestForm.modify (r : RegIdx) : RequestForm.Statement (.modify r) := rfl
theorem RequestForm.modifyReread (r : RegIdx) : RequestForm.Statement (.modifyReread r) := rfl
theorem RequestForm.reservedE : RequestForm.Statement .reservedE := rfl
theorem RequestForm.reservedF : RequestForm.Statement .reservedF := rfl
theorem RequestForm.withCommOption (v : ValPort) (x : CommOption) : RequestForm.Statement (.withCommOption v x) := rfl
theorem RequestForm.withPwmMode (v : ValPort) (x : PwmMode) : RequestForm.Statement (.withPwmMode v x) := rfl
theorem RequestForm.withWwFlag (v : ValPort) (j : FieldIdx) (b : BitVec 1) :
    RequestForm.Statement (.withWwFlag v j b) := rfl

end Sys2Proof.Laws
end

