-- ==== Sys2Proof/Laws/Step.lean ====
section
/-! SUPPORT. What one transition of the sequencer and one clock can do, said once. -/

namespace Sys2Proof.Machine

/-- All that one transition of the sequencer can do when it answers a next state. -/
inductive TickCase (p : Pins) (s : State) : State → Prop where
  | rest : s.phase = .idle → s.opv = false → TickCase p s s
  | write (c) : s.phase = .idle → s.opv = true → s.stage = .frame1 → (s.op = .modify ∨ s.op = .modifyReread) → c.constructible = true →
      TickCase p s (startFrame .frame2 c s)
  | writeBad (e) : s.phase = .idle → s.opv = true → TickCase p s (endOp (.errDriver (.framing e)) s)
  | reread (R) : s.phase = .idle → s.opv = true → s.op = .modifyReread → s.stage = .frame2 → TickCase p s (startFrame .frame3 (makeRead R) s)
  | setupCount : s.phase = .setup → s.cnt ≠ 0 → TickCase p s { s with cnt := s.cnt - 1 }
  | setupEnd : s.phase = .setup → s.cnt = 0 → TickCase p s (({ s with phase := .send }).emit (.delay s.cfg.tCsSetupMinNs))
  | wait : (s.phase = .send ∨ s.phase = .recv) → TickCase p s s
  | sendErr (e) : s.phase = .send → e < 2 ^ s.cfg.terrW → TickCase p s ((latchTransportError e s).emit (.send s.cmd (.err e)))
  | sendOk : s.phase = .send → TickCase p s (({ s with phase := .recv }).emit (.send s.cmd .ok))
  | recvErr (e) : s.phase = .recv → e < 2 ^ s.cfg.terrW → TickCase p s ((latchTransportError e s).emit (.receive (.err e)))
  | recvOk (w) : s.phase = .recv → TickCase p s (({ s with rply := w, phase := .release }).emit (.receive (.ok w)))
  | release : s.phase = .release → TickCase p s (releaseFrame s)
  | holdCount : s.phase = .hold → s.cnt ≠ 0 → TickCase p s { s with cnt := s.cnt - 1 }
  | holdRest : s.phase = .hold → s.cnt = 0 → s.opv = false → TickCase p s { s with phase := .idle }
  | holdEnd (r) : s.phase = .hold → s.cnt = 0 → s.opv = true →
      TickCase p s (endOp r (({ s with phase := .idle }).emit (.delay s.cfg.tCsHighMinNs)))
  | callback (R v) : s.phase = .hold → s.cnt = 0 → s.opv = true → s.errf = false → s.stage = .frame1 → (s.op = .modify ∨ s.op = .modifyReread) →
      s.cfg.reg? s.reg = some R → v.validFor R = true →
      TickCase p s { (({ s with phase := .idle }).emit (.delay s.cfg.tCsHighMinNs)) with val := v }
  | discard : s.phase = .hold → s.cnt = 0 → s.opv = true → s.errf = false → s.stage = .frame2 → s.op = .modifyReread →
      TickCase p s (({ s with phase := .idle }).emit (.delay s.cfg.tCsHighMinNs))

/-- All that `nextFrame` can do. -/
theorem nextFrame_case {p s t} (hp : s.phase = .idle) (ho : s.opv = true) (h : nextFrame s = .next t) : TickCase p s t := by
  unfold nextFrame at h
  split at h
  · cases h
  · split at h
    · rename_i e1 e2
      split at h
      · rename_i hc; cases h; exact .write _ hp ho e2 (.inl e1) (makeWrite_constructible hc)
      · cases h; exact .writeBad _ hp ho
    · rename_i e1 e2
      split at h
      · rename_i hc; cases h; exact .write _ hp ho e2 (.inr e1) (makeWrite_constructible hc)
      · cases h; exact .writeBad _ hp ho
    · rename_i e1 e2; cases h; exact .reread _ hp ho e1 e2
    · cases h

/-- `endWithDecode` ends the operation. -/
theorem endWithDecode_eq (R s) : ∃ r, endWithDecode R s = endOp r s := by
  unfold endWithDecode; split <;> exact ⟨_, rfl⟩

/-- All that `frameDone` can do. -/
theorem frameDone_case {p mr s t} (hp : s.phase = .hold) (hc : s.cnt = 0) (ho : s.opv = true)
    (h : frameDone mr (({ s with phase := .idle }).emit (.delay s.cfg.tCsHighMinNs)) = .next t) : TickCase p s t := by
  have typed : ∀ R, s.cfg.reg? s.reg = some R → s.errf = false →
      typedFrameDone mr R (({ s with phase := .idle }).emit (.delay s.cfg.tCsHighMinNs)) = .next t → TickCase p s t := by
    intro R hR he h
    have dec : ∀ u, endWithDecode R (({ s with phase := .idle }).emit (.delay s.cfg.tCsHighMinNs)) = u → TickCase p s u := by
      intro u hu; obtain ⟨r, e⟩ := endWithDecode_eq R (({ s with phase := .idle }).emit (.delay s.cfg.tCsHighMinNs))
      rw [← hu, e]; exact .holdEnd r hp hc ho
    have app : s.stage = .frame1 → (s.op = .modify ∨ s.op = .modifyReread) →
        applyModify mr R (({ s with phase := .idle }).emit (.delay s.cfg.tCsHighMinNs)) = .next t → TickCase p s t := by
      intro hst hop h
      unfold applyModify at h; split at h
      · obtain ⟨v, hv, h⟩ := onOk_next h
        cases h
        exact .callback R v hp hc ho he hst hop hR (valOperand_ok _ _ _ hv).2
      · cases h; exact .holdEnd _ hp hc ho
    unfold typedFrameDone at h
    simp only [State.emit] at h dec app
    split at h
    · cases h; exact dec _ rfl
    · cases h; exact .holdEnd _ hp hc ho
    · rename_i e1 e2; exact app e2 (.inl e1) h
    · cases h; exact dec _ rfl
    · rename_i e1 e2; exact app e2 (.inr e1) h
    · rename_i e1 e2; cases h; exact .discard hp hc ho he e2 e1
    · cases h; exact dec _ rfl
    · cases h
  unfold frameDone at h
  split at h
  · split at h <;> (cases h; exact .holdEnd _ hp hc ho)
  all_goals first
    | (cases h; done)
    | (split at h
       · cases h; exact .holdEnd _ hp hc ho
       · rename_i he
         split at h
         · cases h
         · rename_i R hR
           exact typed R (regOperand_ok hR) (by simpa [State.emit] using he) h)

/-- Every transition is one of these. -/
theorem tick_case (p : Pins) (s t : State) (h : tick p s = .next t) : TickCase p s t := by
  unfold tick at h
  split at h <;> rename_i hp
  · split at h
    · exact nextFrame_case hp (by assumption) h
    · cases h; exact .rest hp (by simpa using (by assumption : ¬ s.opv = true))
  · cases h; unfold tickSetup; split
    · exact .setupEnd hp (by assumption)
    · exact .setupCount hp (by assumption)
  · unfold tickSend at h; split at h
    · cases h; exact .wait (.inl hp)
    · split at h
      · obtain ⟨e, he, h⟩ := onOk_next h
        unfold errOperand at he; split at he
        · cases he; cases h; exact .sendErr _ hp (by assumption)
        · cases he
      · cases h; exact .sendOk hp
  · unfold tickRecv at h; split at h
    · cases h; exact .wait (.inr hp)
    · split at h
      · obtain ⟨e, he, h⟩ := onOk_next h
        unfold errOperand at he; split at he
        · cases he; cases h; exact .recvErr _ hp (by assumption)
        · cases he
      · cases h; exact .recvOk _ hp
  · cases h; exact .release hp
  · unfold tickHold at h; split at h
    · split at h
      · exact frameDone_case hp (by assumption) (by assumption) h
      · cases h; exact .holdRest hp (by assumption) (by simpa using (by assumption : ¬ s.opv = true))
    · cases h; exact .holdCount hp (by assumption)

/-- All that one clock can do when it answers a next state. -/
inductive StepCase (s : State) : State → Prop where
  | reset : s.nextPins.rst = true → StepCase s (resetState s.dropPins)
  | tick (t) : s.nextPins.rst = false → tick s.nextPins s.dropPins.clearStrobes = .next t → StepCase s t
  | pureTick (r t) : s.nextPins.rst = false → tick s.nextPins { s.dropPins.clearStrobes with rspPure := r } = .next t → StepCase s t
  | exec (t) : s.nextPins.rst = false → s.busy = false → ExecCase s.dropPins.clearStrobes t → StepCase s t

/-- Every clock is one of these, and its parameters were checked. -/
theorem step_case (s t : State) (h : step s = .next t) : s.cfg.wf = true ∧ StepCase s t := by
  unfold step clock at h
  split at h
  · rename_i hw
    refine ⟨hw, ?_⟩
    split at h
    · cases h; rename_i hr; exact .reset hr
    · rename_i hr; simp at hr
      split at h
      · exact .tick _ hr h
      · simp only [clockRequest] at h
        have hbe : s.dropPins.clearStrobes.busy = s.busy := rfl
        split at h
        · obtain ⟨u, hu, h⟩ := onNext_next h
          have hc := exec_case _ _ _ hu
          cases hb : s.busy with
          | true =>
            simp [hbe, hb] at h
            have := exec_case_busy (by rw [hbe, hb]) hc
            rw [this] at h
            exact .pureTick _ _ hr h
          | false =>
            simp [hbe, hb] at h; subst h
            exact .exec _ hr hb hc
        · split at h
          · exact .tick _ hr h
          · cases h
  · cases h

end Sys2Proof.Machine
end

