-- ==== Sys2Proof/Laws/Run.lean ====
section
/-! SUPPORT. Runs of several clocks: the phases of one frame and the frame as a whole. -/

namespace Sys2Proof.Machine

/-- One clock more, at the front. -/
theorem run_succ (k : Nat) (s t : State) (h : step s = .next t) : runFor (k + 1) s = runFor k t := by
  have h' : core.step s = .next t := h
  simp only [runFor, Host.Core.run, h']; rfl

/-- No clock. -/
theorem run_zero (s : State) : runFor 0 s = .next s := rfl

/-- Two runs in a row. -/
theorem run_add (a b : Nat) (s t : State) (h : runFor a s = .next t) : runFor (a + b) s = runFor b t := by
  induction a generalizing s with
  | zero => cases h; rw [Nat.zero_add]
  | succ a ih =>
    rw [Nat.succ_add]
    cases hs : step s with
    | next u => rw [run_succ _ _ _ hs] at h ⊢; exact ih u h
    | fault f =>
      have h' : core.step s = .fault f := hs
      simp [runFor, Host.Core.run, h'] at h
    | refused f =>
      have h' : core.step s = .refused f := hs
      simp [runFor, Host.Core.run, h'] at h

/-- One clock more, at the end. -/
theorem run_last (n : Nat) (s u : State) (h : runFor n s = .next u) : runFor (n + 1) s = step u := by
  rw [run_add n 1 s u h]
  show Host.Core.run core 1 u = core.step u
  cases hs : core.step u <;> simp [Host.Core.run, hs]

/-- A clock with no request and no reset is the sequencer's transition. -/
theorem noreq_step (s : State) (p : Pins) (ps : List Pins) (hw : s.cfg.wf = true) (hp : s.pins = p :: ps) (h1 : p.rst = false) (h2 : p.req = none)
    (hq : s.rspPure = none) (hd : s.rspDrv = none) : step s = tick p { s with pins := ps } := by
  have hw' : s.dropPins.cfg.wf = true := hw
  rw [step, clock, if_pos hw']
  simp only [State.nextPins, hp, h1, h2, Bool.false_eq_true, if_false, State.clearStrobes, State.dropPins, List.tail_cons]
  cases s; simp_all

/-- The clocks of SETUP (R102). -/
theorem setup_run (n : Nat) (s : State) (ps : List Pins) (hw : s.cfg.wf = true) (hq : s.rspPure = none) (hd : s.rspDrv = none)
    (hph : s.phase = .setup) (hc : s.cnt = n) (hp : s.pins = List.replicate (n + 1) Pins.quiet ++ ps) :
    runFor (n + 1) s = .next { s with phase := .send, cnt := 0, pins := ps, trace := s.trace ++ [.delay s.cfg.tCsSetupMinNs] } := by
  induction n generalizing s with
  | zero =>
    have : step s = .next { s with phase := .send, cnt := 0, pins := ps, trace := s.trace ++ [.delay s.cfg.tCsSetupMinNs] } := by
      rw [noreq_step s Pins.quiet ps hw hp rfl rfl hq hd]
      simp [tick, hph, tickSetup, hc, State.emit]
    rw [run_succ _ _ _ this, run_zero]
  | succ n ih =>
    have : step s = .next { s with cnt := n, pins := List.replicate (n + 1) Pins.quiet ++ ps } := by
      rw [noreq_step s Pins.quiet _ hw hp rfl rfl hq hd]
      simp [tick, hph, tickSetup, hc]
    rw [run_succ _ _ _ this, ih { s with cnt := n, pins := List.replicate (n + 1) Pins.quiet ++ ps } hw hq hd hph rfl rfl]

/-- The counting clocks of HOLD (R107). -/
theorem hold_run (n : Nat) (s : State) (ps : List Pins) (hw : s.cfg.wf = true) (hq : s.rspPure = none) (hd : s.rspDrv = none)
    (hph : s.phase = .hold) (hc : s.cnt = n) (hp : s.pins = List.replicate n Pins.quiet ++ ps) :
    runFor n s = .next { s with cnt := 0, pins := ps } := by
  induction n generalizing s with
  | zero => rw [run_zero]; cases s; simp_all
  | succ n ih =>
    have : step s = .next { s with cnt := n, pins := List.replicate n Pins.quiet ++ ps } := by
      rw [noreq_step s Pins.quiet _ hw hp rfl rfl hq hd]
      simp [tick, hph, tickHold, hc]
    rw [run_succ _ _ _ this, ih { s with cnt := n, pins := List.replicate n Pins.quiet ++ ps } hw hq hd hph rfl rfl]

/-- Clocks in which the transport does not answer (R103, R104, R109). -/
theorem wait_run (n : Nat) (s : State) (ps : List Pins) (hw : s.cfg.wf = true) (hq : s.rspPure = none) (hd : s.rspDrv = none)
    (hph : s.phase = .send ∨ s.phase = .recv) (hp : s.pins = List.replicate n Pins.quiet ++ ps) :
    runFor n s = .next { s with pins := ps } := by
  induction n generalizing s with
  | zero => rw [run_zero]; cases s; simp_all
  | succ n ih =>
    have : step s = .next { s with pins := List.replicate n Pins.quiet ++ ps } := by
      rw [noreq_step s Pins.quiet _ hw hp rfl rfl hq hd]
      rcases hph with h | h <;> simp [tick, h, tickSend, tickRecv, Pins.quiet]
    rw [run_succ _ _ _ this, ih { s with pins := List.replicate n Pins.quiet ++ ps } hw hq hd hph rfl]

/-- What the clocks of one frame leave alone. -/
structure SameOp (s u : State) : Prop where
  cfg : u.cfg = s.cfg
  opv : u.opv = s.opv
  op : u.op = s.op
  reg : u.reg = s.reg
  stage : u.stage = s.stage
  val : u.val = s.val
  cmd : u.cmd = s.cmd
  rspPure : u.rspPure = none
  rspDrv : u.rspDrv = none

theorem SameOp.trans {s t u : State} (h : SameOp s t) (k : SameOp t u) : SameOp s u where
  cfg := k.cfg.trans h.cfg
  opv := k.opv.trans h.opv
  op := k.op.trans h.op
  reg := k.reg.trans h.reg
  stage := k.stage.trans h.stage
  val := k.val.trans h.val
  cmd := k.cmd.trans h.cmd
  rspPure := k.rspPure
  rspDrv := k.rspDrv

/-- Waiting clocks, then the clock that answers `Send`. -/
theorem send_run (n : Nat) (a : SendAns) (s : State) (ps : List Pins) (hw : s.cfg.wf = true) (hq : s.rspPure = none)
    (hd : s.rspDrv = none) (hph : s.phase = .send) (hf : ∀ e, a = .err e → e < 2 ^ s.cfg.terrW)
    (hp : s.pins = List.replicate n Pins.quiet ++ sendPins a :: ps) :
    ∃ u, runFor (n + 1) s = .next u ∧ SameOp s u ∧ u.pins = ps ∧ u.trace = s.trace ++ [.send s.cmd a]
      ∧ (a = .ok → u.phase = .recv ∧ u.errf = s.errf)
      ∧ (∀ e, a = .err e → u.phase = .release ∧ u.errf = true ∧ u.terr = e) := by
  have h1 := wait_run n s _ hw hq hd (.inl hph) hp
  rw [run_add _ _ _ _ h1]
  cases a with
  | ok =>
    refine ⟨{ s with phase := .recv, pins := ps, trace := s.trace ++ [.send s.cmd .ok] }, ?_, ⟨rfl, rfl, rfl, rfl, rfl, rfl, rfl, hq, hd⟩, rfl, rfl, fun _ => ⟨rfl, rfl⟩, fun _ h => by cases h⟩
    rw [run_succ _ _ _ (t := { s with phase := .recv, pins := ps, trace := s.trace ++ [.send s.cmd .ok] }), run_zero]
    rw [noreq_step { s with pins := sendPins .ok :: ps } (sendPins .ok) ps hw rfl rfl rfl hq hd]
    simp [tick, hph, tickSend, sendPins, State.emit, Pins.quiet]
  | err e =>
    have hlt := hf e rfl
    refine ⟨{ s with terr := e, errf := true, phase := .release, pins := ps, trace := s.trace ++ [.send s.cmd (.err e)] }, ?_, ⟨rfl, rfl, rfl, rfl, rfl, rfl, rfl, hq, hd⟩, rfl, rfl, (fun h => by cases h), fun _ h => by cases h; exact ⟨rfl, rfl, rfl⟩⟩
    rw [run_succ _ _ _ (t := { s with terr := e, errf := true, phase := .release, pins := ps, trace := s.trace ++ [.send s.cmd (.err e)] }), run_zero]
    rw [noreq_step { s with pins := sendPins (.err e) :: ps } (sendPins (.err e)) ps hw rfl rfl rfl hq hd]
    simp [tick, hph, tickSend, sendPins, errOperand, hlt, onOk, latchTransportError, State.emit]

/-- Waiting clocks, then the clock that answers `Receive`. -/
theorem recv_run (n : Nat) (a : RecvAns) (s : State) (ps : List Pins) (hw : s.cfg.wf = true) (hq : s.rspPure = none)
    (hd : s.rspDrv = none) (hph : s.phase = .recv) (hf : ∀ e, a = .err e → e < 2 ^ s.cfg.terrW)
    (hp : s.pins = List.replicate n Pins.quiet ++ recvPins a :: ps) :
    ∃ u, runFor (n + 1) s = .next u ∧ SameOp s u ∧ u.pins = ps ∧ u.trace = s.trace ++ [.receive a] ∧ u.phase = .release
      ∧ (∀ w, a = .ok w → u.errf = s.errf ∧ u.rply = w)
      ∧ (∀ e, a = .err e → u.errf = true ∧ u.terr = e) := by
  have h1 := wait_run n s _ hw hq hd (.inr hph) hp
  rw [run_add _ _ _ _ h1]
  cases a with
  | ok w =>
    refine ⟨{ s with rply := w, phase := .release, pins := ps, trace := s.trace ++ [.receive (.ok w)] }, ?_, ⟨rfl, rfl, rfl, rfl, rfl, rfl, rfl, hq, hd⟩, rfl, rfl, rfl, (fun _ h => by cases h; exact ⟨rfl, rfl⟩), fun _ h => by cases h⟩
    rw [run_succ _ _ _ (t := { s with rply := w, phase := .release, pins := ps, trace := s.trace ++ [.receive (.ok w)] }), run_zero]
    rw [noreq_step { s with pins := recvPins (.ok w) :: ps } (recvPins (.ok w)) ps hw rfl rfl rfl hq hd]
    simp [tick, hph, tickRecv, recvPins, State.emit, Pins.quiet]
  | err e =>
    have hlt := hf e rfl
    refine ⟨{ s with terr := e, errf := true, phase := .release, pins := ps, trace := s.trace ++ [.receive (.err e)] }, ?_, ⟨rfl, rfl, rfl, rfl, rfl, rfl, rfl, hq, hd⟩, rfl, rfl, rfl, (fun _ h => by cases h), fun _ h => by cases h; exact ⟨rfl, rfl⟩⟩
    rw [run_succ _ _ _ (t := { s with terr := e, errf := true, phase := .release, pins := ps, trace := s.trace ++ [.receive (.err e)] }), run_zero]
    rw [noreq_step { s with pins := recvPins (.err e) :: ps } (recvPins (.err e)) ps hw rfl rfl rfl hq hd]
    simp [tick, hph, tickRecv, recvPins, errOperand, hlt, onOk, latchTransportError, State.emit]

/-- The pins of the clock in which `HOLD` ends. -/
def holdPins (mr : ValPort) : Pins := { Pins.quiet with modRes := mr }

/-- `RELEASE` and the counting clocks of `HOLD`. -/
theorem tail_run (mr : ValPort) (s : State) (rest : List Pins) (hw : s.cfg.wf = true) (hq : s.rspPure = none)
    (hd : s.rspDrv = none) (hph : s.phase = .release)
    (hp : s.pins = Pins.quiet :: (List.replicate s.cfg.nHigh Pins.quiet ++ holdPins mr :: rest)) :
    ∃ u, runFor (s.cfg.nHigh + 1) s = .next u ∧ SameOp s u ∧ u.pins = holdPins mr :: rest
      ∧ u.trace = s.trace ++ [.csHigh] ∧ u.phase = .hold ∧ u.cnt = 0 ∧ u.csN = true
      ∧ u.errf = s.errf ∧ u.terr = s.terr ∧ u.rply = s.rply := by
  refine ⟨{ s with csN := true, phase := .hold, cnt := 0, pins := holdPins mr :: rest, trace := s.trace ++ [.csHigh] }, ?_,
    ⟨rfl, rfl, rfl, rfl, rfl, rfl, rfl, hq, hd⟩, rfl, rfl, rfl, rfl, rfl, rfl, rfl, rfl⟩
  rw [run_succ _ _ _ (t := { s with csN := true, phase := .hold, cnt := s.cfg.nHigh, pins := List.replicate s.cfg.nHigh Pins.quiet ++ holdPins mr :: rest, trace := s.trace ++ [.csHigh] })]
  · exact hold_run s.cfg.nHigh { s with csN := true, phase := .hold, cnt := s.cfg.nHigh, pins := List.replicate s.cfg.nHigh Pins.quiet ++ holdPins mr :: rest, trace := s.trace ++ [.csHigh] } _ hw hq hd rfl rfl rfl
  · rw [noreq_step _ Pins.quiet _ hw hp rfl rfl hq hd]
    simp [tick, hph, releaseFrame]

/-- The events of a frame after chip-select has fallen. -/
def frameEvents (p : Params) (w : Word) (a : FrameAns) : List Event :=
  match a.send with
  | .err e => [.delay p.tCsSetupMinNs, .send w (.err e), .csHigh]
  | .ok => [.delay p.tCsSetupMinNs, .send w .ok, .receive a.recv, .csHigh]

/-- The frame's result at its end. -/
def frameResult (a : FrameAns) : Except Nat Word :=
  match a.send with
  | .err e => .error e
  | .ok => match a.recv with
    | .err e => .error e
    | .ok w => .ok w

/-- The state in the last clock of HOLD. -/
structure FrameEnd (s : State) (a : FrameAns) (mr : ValPort) (rest : List Pins) (u : State) : Prop extends SameOp s u where
  phase : u.phase = .hold
  cnt : u.cnt = 0
  csN : u.csN = true
  pins : u.pins = holdPins mr :: rest
  trace : u.trace = s.trace ++ frameEvents s.cfg s.cmd a
  okRes : ∀ w, frameResult a = .ok w → u.errf = false ∧ u.rply = w
  errRes : ∀ e, frameResult a = .error e → u.errf = true ∧ u.terr = e

/-- The clocks of one frame up to the last of HOLD. -/
theorem frame_run (s : State) (x : FrameIn) (mr : ValPort) (rest : List Pins) (hw : s.cfg.wf = true) (hq : s.rspPure = none)
    (hd : s.rspDrv = none) (hph : s.phase = .setup) (hc : s.cnt = s.cfg.nSetup) (he : s.errf = false) (hf : x.ans.fits s.cfg)
    (hp : s.pins = framePins s.cfg mr x ++ rest) :
    ∃ n u, n + 1 = (framePins s.cfg mr x).length ∧ runFor n s = .next u ∧ FrameEnd s x.ans mr rest u := by
  obtain ⟨⟨sa, ra⟩, sw, rw_⟩ := x
  obtain ⟨f1, f2⟩ := hf
  let tl := recvPhasePins ⟨⟨sa, ra⟩, sw, rw_⟩ ++ Pins.quiet :: (List.replicate s.cfg.nHigh Pins.quiet ++ holdPins mr :: rest)
  have h1 := setup_run s.cfg.nSetup s (List.replicate sw Pins.quiet ++ sendPins sa :: tl) hw hq hd hph hc
    (by rw [hp, framePins]; simp [tl, holdPins])
  obtain ⟨u2, h2, e2, p2, t2, r2, r2'⟩ := send_run sw sa { s with phase := .send, cnt := 0, pins := List.replicate sw Pins.quiet ++ sendPins sa :: tl, trace := s.trace ++ [.delay s.cfg.tCsSetupMinNs] } tl hw hq hd rfl f1 rfl
  have hw2 : u2.cfg.wf = true := by rw [e2.cfg]; exact hw
  have hA := run_add _ (sw + 1) _ _ h1
  rw [h2] at hA
  cases sa with
  | err e =>
    obtain ⟨u3, h3, e3, p3, t3, a1, a2, a3, a4, a5, a6⟩ := tail_run mr u2 rest hw2 e2.rspPure e2.rspDrv (r2' e rfl).1 (by rw [p2, e2.cfg]; simp [tl, recvPhasePins])
    have hB := run_add _ (u2.cfg.nHigh + 1) _ _ hA
    rw [h3] at hB
    refine ⟨_, u3, ?_, hB, { toSameOp := ?_, phase := a1, cnt := a2, csN := a3, pins := p3, trace := ?_, okRes := ?_, errRes := ?_ }⟩
    · rw [e2.cfg]; simp [framePins, recvPhasePins]; omega
    · have k := e2.trans e3; exact ⟨k.cfg, k.opv, k.op, k.reg, k.stage, k.val, k.cmd, k.rspPure, k.rspDrv⟩
    · simp [t3, t2, frameEvents]
    · intro w h; cases h
    · intro e' h; cases h; exact ⟨a4.trans (r2' e rfl).2.1, a5.trans (r2' e rfl).2.2⟩
  | ok =>
    obtain ⟨u3, h3, e3, p3, t3, ph3, r3, r3'⟩ := recv_run rw_ ra u2 (Pins.quiet :: (List.replicate s.cfg.nHigh Pins.quiet ++ holdPins mr :: rest)) hw2 e2.rspPure e2.rspDrv (r2 rfl).1
      (by rw [e2.cfg]; exact f2) (by rw [p2]; simp [tl, recvPhasePins])
    have hw3 : u3.cfg.wf = true := by rw [e3.cfg]; exact hw2
    have hc3 : u3.cfg = s.cfg := e3.cfg.trans e2.cfg
    obtain ⟨u4, h4, e4, p4, t4, a1, a2, a3, a4, a5, a6⟩ := tail_run mr u3 rest hw3 e3.rspPure e3.rspDrv ph3 (by rw [p3, hc3])
    have hB := run_add _ (rw_ + 1) _ _ hA
    rw [h3] at hB
    have hC := run_add _ (u3.cfg.nHigh + 1) _ _ hB
    rw [h4] at hC
    refine ⟨_, u4, ?_, hC, { toSameOp := ?_, phase := a1, cnt := a2, csN := a3, pins := p4, trace := ?_, okRes := ?_, errRes := ?_ }⟩
    · rw [hc3]; simp [framePins, recvPhasePins]; omega
    · have k := e2.trans (e3.trans e4); exact ⟨k.cfg, k.opv, k.op, k.reg, k.stage, k.val, k.cmd, k.rspPure, k.rspDrv⟩
    · simp [t4, t3, t2, frameEvents]
    · intro w h
      cases ra with
      | ok w' => cases h; exact ⟨by rw [a4, (r3 w rfl).1, (r2 rfl).2]; exact he, a6.trans (r3 w rfl).2⟩
      | err e => cases h
    · intro e' h
      cases ra with
      | ok w' => cases h
      | err e => cases h; exact ⟨a4.trans (r3' e' rfl).1, a5.trans (r3' e' rfl).2⟩

/-- The state in which the frame's result is handed to the operation layer (R107). -/
structure FrameOver (s : State) (a : FrameAns) (rest : List Pins) (u : State) : Prop extends SameOp s u where
  phase : u.phase = .idle
  cnt : u.cnt = 0
  csN : u.csN = true
  pins : u.pins = rest
  trace : u.trace = s.trace ++ frameEvents s.cfg s.cmd a ++ [.delay s.cfg.tCsHighMinNs]
  okRes : ∀ w, frameResult a = .ok w → u.errf = false ∧ u.rply = w
  errRes : ∀ e, frameResult a = .error e → u.errf = true ∧ u.terr = e

/-- The clocks of one frame, the last of HOLD included. -/
theorem frame_over (s : State) (x : FrameIn) (mr : ValPort) (rest : List Pins) (hw : s.cfg.wf = true) (hq : s.rspPure = none)
    (hd : s.rspDrv = none) (ho : s.opv = true) (hph : s.phase = .setup) (hc : s.cnt = s.cfg.nSetup) (he : s.errf = false) (hf : x.ans.fits s.cfg)
    (hp : s.pins = framePins s.cfg mr x ++ rest) :
    ∃ u, runFor (framePins s.cfg mr x).length s = frameDone mr u ∧ FrameOver s x.ans rest u := by
  obtain ⟨n, u, hn, hr, h⟩ := frame_run s x mr rest hw hq hd hph hc he hf hp
  refine ⟨({ u with pins := rest, phase := .idle }).emit (.delay u.cfg.tCsHighMinNs), ?_, ?_⟩
  · rw [← hn, run_last _ _ _ hr, noreq_step u (holdPins mr) rest (by rw [h.cfg]; exact hw) h.pins rfl rfl h.rspPure h.rspDrv]
    simp [tick, h.phase, tickHold, h.cnt, h.opv, ho, holdPins]
  · exact { toSameOp := ⟨h.cfg, h.opv, h.op, h.reg, h.stage, h.val, h.cmd, h.rspPure, h.rspDrv⟩, phase := rfl, cnt := h.cnt, csN := h.csN, pins := rfl,
            trace := by simp [State.emit, h.trace, h.cfg], okRes := h.okRes, errRes := h.errRes }

/-- EXECUTE at the source level, its three traces in one. -/
theorem srcExecute_eq (p : Params) (c : CmdWord) (a : FrameAns) :
    srcExecute p c a = (.csLow :: (frameEvents p (toWire c) a ++ [.delay p.tCsHighMinNs]), frameResult a) := by
  obtain ⟨sa, ra⟩ := a
  cases sa with
  | err e => rfl
  | ok => cases ra <;> rfl

end Sys2Proof.Machine
end

