-- ==== Sys2Proof/Tests/Slice0.lean ====
section
/-! SUPPORT. Tests on fixed values, their expected results from spec/95_test_vectors.md or worked out by hand from the rule
named, and the witnesses: for every obligation with hypotheses, a concrete case that meets them. -/

namespace Sys2Proof.Tests

open Sys2Proof.Machine

/-! ## Well-formedness: an ill-formed term for each check -/

theorem test_wf_toWire_read_payload : (Instr.toWire ⟨.read, 0x1#4, 0x001#11⟩).wf = false := by decide
theorem test_wf_execute_read_payload : (Instr.execute ⟨.read, 0x1#4, 0x400#11⟩).wf = false := by decide
theorem test_wf_flag_index : (Instr.withWwFlag ⟨0#16, 0#11⟩ 10#4 1#1).wf = false := by decide
theorem test_wf_accepts : (Instr.execute ⟨.write, 0x1#4, 0x7FF#11⟩).wf = true
    ∧ (Instr.withWwFlag ⟨0#16, 0#11⟩ 9#4 1#1).wf = true := by decide

/-! ## Decoding: words written out from R50, R52, R60, R64 and the layout of log entry 10 -/

-- kind 1, address 1100, payload zero: 0xE000, S3 as 90_conflicts.md C1 corrects it
theorem test_decode_rd : decodeTableWord 16 0b1110000000000000 = some (.rd 0xC#4) := by decide
-- kind 0, address 1100, payload 10101010101: 0x6555, Part 3
theorem test_decode_wr : decodeTableWord 16 0b0110010101010101 = some (.wr 0xC#4 0x555#11) := by decide
theorem test_decode_address : decodeTableWord 8 0b00010000 = some (.address 1#4) := by decide
-- word (bits 31:16) 0x0300, reg 0, op 0001
theorem test_decode_decode : decodeTableWord 88 0x03000001 = some (.decode 0#4 0x0300#16) := by decide
-- val.codes (74:64) 101, val.bits (63:48) 0x0200, op 0010
theorem test_decode_encode : decodeTableWord 88 0x5_0200_0000_0000_0002 = some (.encode 0#4 ⟨0x0200#16, 5#11⟩) := by decide
-- the same value, field (11:8) 0001, op 0011
theorem test_decode_getField :
    decodeTableWord 88 0x5_0200_0000_0000_0103 = some (.getField 0#4 ⟨0x0200#16, 5#11⟩ 1#4) := by decide
-- fval (85:75) 10, the rest as before, op 0100
theorem test_decode_withField :
    decodeTableWord 88 0x1005_0200_0000_0000_0104 = some (.withField 0#4 ⟨0x0200#16, 5#11⟩ 1#4 2#11) := by decide
-- addr (15:12) 0111, op 0101
theorem test_decode_makeRead : decodeTableWord 16 0x7005 = some (.wr 0xE#4 0x005#11)
    ∧ decodeTableWord 88 0x7005 = some (.makeRead 0x7#4) := by decide
theorem test_decode_makeWrite : decodeTableWord 88 0x04001006 = some (.makeWrite 0x1#4 0x0400#16) := by decide
-- cmd (47:32) 0x3900: write, address 0111, payload 00100000000
theorem test_decode_toWire :
    decodeTableWord 88 0x390000000007 = some (.toWire ⟨.write, 0x7#4, 0x100#11⟩) := by decide
theorem test_decode_fromWire : decodeTableWord 88 0xFFFF0008 = some (.fromWire 0xFFFF#16) := by decide
theorem test_decode_execute :
    decodeTableWord 88 0x880000000009 = some (.execute ⟨.read, 0x1#4, 0x000#11⟩) := by decide
theorem test_decode_execute_rejects : decodeTableWord 88 0x880100000009 = none := by decide
theorem test_decode_read : decodeTableWord 8 0b00011010 = some (.read 1#4) := by decide
theorem test_decode_write : decodeTableWord 88 0x4_0000_0000_0000_000B = some (.write 0#4 ⟨0x0000#16, 4#11⟩) := by decide
theorem test_decode_modify : decodeTableWord 8 0b00001100 = some (.modify 0#4) := by decide
theorem test_decode_modifyReread : decodeTableWord 8 0b00001101 = some (.modifyReread 0#4) := by decide
theorem test_decode_reserved : decodeTableWord 8 0b00001110 = some .reservedE
    ∧ decodeTableWord 8 0b00001111 = some .reservedF := by decide
-- the named instances have no code of their own (R75 to R77): op 0100, register 0 field 0, register 0 field 1, register 1
theorem test_decode_withCommOption : decodeTableWord 88 0x800_0000_0000_0000_0004
    = some (Instr.withCommOption ⟨0#16, 0#11⟩ .active).coreForm := by decide
theorem test_decode_withPwmMode : decodeTableWord 88 0x1000_0000_0000_0000_0104
    = some (Instr.withPwmMode ⟨0#16, 0#11⟩ .one).coreForm := by decide
theorem test_decode_withWwFlag : decodeTableWord 88 0x800_0000_0000_0000_0914
    = some (Instr.withWwFlag ⟨0#16, 0#11⟩ 9#4 1#1).coreForm := by decide
/-- A nibble longer than the request changes nothing: bits above 87 are not read. -/
theorem test_decode_above : decodeTableWord 88 (2 ^ 88 + 0xE) = some .reservedE := by decide

/-! ## Helpers -/

/-- A ready block of the default build. -/
def ready : State := { State.reset with phase := .idle, cnt := 0 }

/-- The ready block of a build that has the optional operation. -/
def readyReread : State := { ready with cfg := { defaultParams with hasModifyReread := true } }

/-- The block in a phase of an operation in flight. -/
def during (op : HostOp) (st : Stage) (ph : Phase) (cnt : Nat) : State :=
  { State.reset with phase := ph, csN := !ph.framed, cnt := cnt, opv := true, op := op, stage := st }

/-- What a pure operation answers. -/
def answer (o : Out) : Option Response :=
  match o with
  | .next s => s.rspPure
  | _ => none

/-- The next state of an outcome. -/
def nextOf (o : Out) : Option State :=
  match o with
  | .next s => some s
  | _ => none

theorem next_of {o : Out} {t : State} (h : nextOf o = some t) : o = .next t := by
  unfold nextOf at h
  split at h <;> simp_all

/-- A value of `GateDriveControl` on the port: `comm_option` in bit 0, `pwm_mode` in bits 2:1 (log entry 11). -/
def gd (bits : Word) (comm : CommOption) (pwm : PwmMode) : ValPort :=
  ⟨bits, comm.code ||| (pwm.code <<< 1)⟩

/-! ## Pure operations: Parts 2 and 3 of the vectors -/

theorem test_address : answer (exec (.address 0#4) State.reset) = some (.okAddress 0x7#4) := by decide
theorem test_decode_ok : answer (exec (.decode 0#4 0xFA00#16) State.reset)
    = some (.okValue ⟨0xFA00#16, [1#16, 0#16]⟩) := by decide
theorem test_decode_err : answer (exec (.decode 0#4 0x0380#16) State.reset)
    = some (.errDecode (.invalidFieldValue 1 3#16)) := by decide
theorem test_decode_flags : answer (exec (.decode 1#4 0x0401#16) State.reset)
    = some (.okValue ⟨0x0401#16, [1#16, 0#16, 0#16, 0#16, 0#16, 0#16, 0#16, 0#16, 0#16, 1#16]⟩) := by decide
theorem test_encode : answer (exec (.encode 0#4 (gd 0x0555#16 .diode .three)) State.reset) = some (.okWord 0x04D5#16) := by decide
theorem test_encode_high : answer (exec (.encode 0#4 (gd 0xFE7F#16 .active .one)) State.reset) = some (.okWord 0xFF7F#16) := by
  decide
theorem test_getField : answer (exec (.getField 0#4 (gd 0x0100#16 .diode .three) 1#4) State.reset) = some (.okField 1#16) := by
  decide
theorem test_withField : answer (exec (.withField 0#4 (gd 0x0200#16 .active .six) 1#4 2#11) State.reset)
    = some (.okValue ⟨0x0200#16, [1#16, 2#16]⟩) := by decide
theorem test_withCommOption : answer (exec (.withCommOption (gd 0x067F#16 .active .six) .diode) State.reset)
    = some (.okValue ⟨0x067F#16, [0#16, 0#16]⟩) := by decide
theorem test_withPwmMode : answer (exec (.withPwmMode (gd 0x0000#16 .diode .six) .one) State.reset)
    = some (.okValue ⟨0x0000#16, [0#16, 2#16]⟩) := by decide
theorem test_withWwFlag : answer (exec (.withWwFlag ⟨0x0401#16, 0x201#11⟩ 9#4 0#1) State.reset)
    = some (.okValue ⟨0x0401#16, [1#16, 0#16, 0#16, 0#16, 0#16, 0#16, 0#16, 0#16, 0#16, 0#16]⟩) := by decide
theorem test_makeRead : answer (exec (.makeRead 0xF#4) State.reset) = some (.okCommand ⟨.read, 0xF#4, 0#11⟩) := by decide
theorem test_makeWrite : answer (exec (.makeWrite 0xF#4 0x07FF#16) State.reset)
    = some (.okCommand ⟨.write, 0xF#4, 0x7FF#11⟩) := by decide
theorem test_makeWrite_wide : answer (exec (.makeWrite 0x1#4 0xF800#16) State.reset)
    = some (.errFraming .payloadTooWide) := by decide
theorem test_toWire : answer (exec (.toWire ⟨.read, 0xC#4, 0#11⟩) State.reset) = some (.okWord 0xE000#16) := by decide
theorem test_toWire_write : answer (exec (.toWire ⟨.write, 0x7#4, 0x47F#11⟩) State.reset) = some (.okWord 0x3C7F#16) := by decide
theorem test_fromWire : answer (exec (.fromWire 0xFFFF#16) State.reset) = some (.okWord 0xFFFF#16) := by decide

/-! ## Driver operations: one clock each, Parts 4 and 5 of the vectors -/

-- T1, edge 0, the request being a bare wire word
theorem test_rd : nextOf (exec (.rd 0x1#4) ready) = some { ready with
    opv := true, op := .execute, stage := .frame1, cmd := 0x8800#16, csN := false, cnt := 1, phase := .setup,
    trace := [.csLow] } := by decide
-- V4
theorem test_wr : nextOf (exec (.wr 0xC#4 0x555#11) ready) = some { ready with
    opv := true, op := .execute, stage := .frame1, cmd := 0x6555#16, csN := false, cnt := 1, phase := .setup,
    trace := [.csLow] } := by decide
-- T1, edge 0
theorem test_execute : nextOf (exec (.execute ⟨.read, 0x1#4, 0#11⟩) ready) = some { ready with
    opv := true, op := .execute, stage := .frame1, cmd := 0x8800#16, csN := false, cnt := 1, phase := .setup,
    trace := [.csLow] } := by decide
-- V5
theorem test_read : nextOf (exec (.read 0#4) ready) = some { ready with
    opv := true, op := .read, stage := .frame1, cmd := 0xB800#16, csN := false, cnt := 1, phase := .setup,
    trace := [.csLow] } := by decide
-- V9
theorem test_write : nextOf (exec (.write 0#4 (gd 0x0000#16 .diode .one)) ready) = some { ready with
    opv := true, op := .write, stage := .frame1, cmd := 0x3900#16, csN := false, cnt := 1, phase := .setup,
    trace := [.csLow] } := by decide
-- V10
theorem test_write_framing : nextOf (exec (.write 0#4 (gd 0xFA00#16 .active .one)) ready)
    = some { ready with rspDrv := some (.errDriver (.framing .payloadTooWide)) } := by decide
-- V12, the first frame
theorem test_modify : nextOf (exec (.modify 0#4) ready) = some { ready with
    opv := true, op := .modify, stage := .frame1, cmd := 0xB800#16, csN := false, cnt := 1, phase := .setup,
    trace := [.csLow] } := by decide
-- V12, the write frame: S.VAL holds Active, One over 0x0200
theorem test_modify_write : nextOf (step { during .modify .frame1 .idle 0 with val := ⟨0x0200#16, [1#16, 2#16]⟩ })
    = some { during .modify .frame2 .setup 1 with
        val := ⟨0x0200#16, [1#16, 2#16]⟩, cmd := 0x3B00#16, trace := [.csLow] } := by decide
-- V19, the first frame
theorem test_modifyReread : nextOf (exec (.modifyReread 0#4) readyReread) = some { readyReread with
    opv := true, op := .modifyReread, stage := .frame1, cmd := 0xB800#16, csN := false, cnt := 1, phase := .setup,
    trace := [.csLow] } := by decide
-- V21
theorem test_modifyReread_absent : nextOf (exec (.modifyReread 0#4) ready) = some ready := by decide
theorem test_reserved : nextOf (exec .reservedE ready) = some ready ∧ nextOf (exec .reservedF ready) = some ready := by decide
-- V22
theorem test_busy : nextOf (exec (.read 0#4) State.reset) = some State.reset := by decide

/-! ## One clock of the sequencer: T1, T2, T3 -/

-- T1, edge 2
theorem test_setup_end : nextOf (step (during .execute .frame1 .setup 0))
    = some { during .execute .frame1 .send 0 with trace := [.delay 50] } := by decide
-- T2, edge 4
theorem test_send_err : nextOf (step { during .execute .frame1 .send 0 with
      pins := [{ Pins.quiet with txDone := true, txErr := true, tErr := 9 }] })
    = some { during .execute .frame1 .release 0 with
        errf := true, terr := 9, trace := [.send 0#16 (.err 9)] } := by decide
-- T1, edge 5
theorem test_recv : nextOf (step { during .execute .frame1 .recv 0 with
      pins := [{ Pins.quiet with rxDone := true, rxWord := 0x0401#16 }] })
    = some { during .execute .frame1 .release 0 with
        rply := 0x0401#16, trace := [.receive (.ok 0x0401#16)] } := by decide
-- T1, edge 6
theorem test_release : nextOf (step (during .execute .frame1 .release 0))
    = some { during .execute .frame1 .hold 5 with trace := [.csHigh] } := by decide
-- T1, edge 12
theorem test_hold_end : nextOf (step { during .execute .frame1 .hold 0 with rply := 0x0401#16 })
    = some { ready with
        op := .execute, rply := 0x0401#16, rspDrv := some (.okWord 0x0401#16), trace := [.delay 500] } := by decide
-- the ports of that result
theorem test_ports : (Response.okWord 0x0401#16).ports = { RspPorts.bare 0#2 with word := some 0x0401#16 } := by decide
-- T3
theorem test_rst : nextOf (step { during .execute .frame1 .send 0 with pins := [{ Pins.quiet with rst := true }] })
    = some { State.reset with trace := [.rst] } := by decide
-- delay counts of Part 5
theorem test_delay_counts : ({ defaultParams with tClkNs := 20 }).nSetup = 3 ∧ ({ defaultParams with tClkNs := 20 }).nHigh = 25
    ∧ ({ defaultParams with tClkNs := 125 }).nHigh = 4 := by decide
-- the one-instruction interface runs the instruction in the first clock after reset
theorem test_withFetchWord : nextOf (step (State.reset.withFetchWord 16 0x8800))
    = some { ready with
        opv := true, op := .execute, stage := .frame1, cmd := 0x8800#16, csN := false, cnt := 1, phase := .setup,
        trace := [.csLow] } := by decide

/-! ## Witnesses -/

/-- The default `GateDriveControl` holding Active, Six over 0x0200. -/
def val0 : RegVal := ⟨0x0200#16, [1#16, 0#16]⟩

theorem witness_DecodeOfEncode : (Instr.withWwFlag ⟨0xFFFF#16, 0x7FF#11⟩ 9#4 1#1).wf = true := by decide
theorem witness_DecodedIsWellFormed : decodeRequest (.wire 0x8800#16) = .ok (.rd 0x1#4) := by decide
theorem witness_WireWordForms : 0x7FFF#16 &&& 0x8000#16 = 0#16 ∧ 0xF800#16 &&& 0x87FF#16 = 0x8000#16
    ∧ 0x8001#16 &&& 0x8000#16 ≠ 0#16 ∧ 0x8001#16 &&& 0x87FF#16 ≠ 0x8000#16 := by decide
theorem witness_FramingExactness : (2047#16 : Word).toNat < 2048 := by decide
theorem witness_WireImage : (makeRead 0xF#4).constructible = true ∧ toWire (makeRead 0xF#4) = toWire (makeRead 0xF#4) := by decide
theorem witness_MakeWriteAnswers : (2047#16 : Word).toNat < 2048 ∧ 2048 ≤ (2048#16 : Word).toNat := by decide
theorem witness_ToWireAnswers : (makeRead 0xC#4).constructible = true
    ∧ ({ kind := .read, address := 0xC#4, payload := 1#11 } : CmdWord).constructible = false := by decide
theorem witness_AddressAnswers : State.reset.cfg.reg? 1#4 = some (warningAndWatchdog defaultWwFlags)
    ∧ State.reset.cfg.reg? 2#4 = none ∧ State.reset.cfg.reg? 15#4 = none := by decide
theorem witness_DecodeAnswers_ok : State.reset.cfg.reg? 0#4 = some gateDriveControl
    ∧ ∀ f ∈ gateDriveControl.fields, f.allows (extractField 0xFA00#16 f.offset f.width) = true := by decide

/-- The second field of `GateDriveControl`. -/
def pwmField : FieldDesc :=
  { name := .pwmMode, offset := 7, width := 2, domain := .enumerated [(.six, 0), (.three, 1), (.one, 2)] }

theorem witness_DecodeAnswers_error : State.reset.cfg.reg? 0#4 = some gateDriveControl
    ∧ gateDriveControl.fields[1]? = some pwmField
    ∧ pwmField.allows (extractField 0x0380#16 7 2) = false
    ∧ ∀ (j : Nat) (g : FieldDesc), j < 1 → gateDriveControl.fields[j]? = some g →
        g.allows (extractField 0x0380#16 g.offset g.width) = true := by
  refine ⟨by decide, by decide, by decide, fun j g hj hg => ?_⟩
  obtain rfl : j = 0 := by omega
  cases hg; decide

theorem witness_DecodeDomainOfFailure : gateDriveControl.wf = true ∧ 0x0180#16 &&& 0x0180#16 = 0x0180#16
    ∧ defaultParams.wf = true := by decide
theorem witness_EncodeAnswers : State.reset.cfg.reg? 0#4 = some gateDriveControl ∧ gateDriveControl.wf = true
    ∧ valOperand gateDriveControl (gd 0x0200#16 .active .six) = .ok val0
    ∧ gateDriveControl.fields[1]? = some pwmField ∧ val0.codes[1]? = some 0#16
    ∧ ∀ f ∈ gateDriveControl.fields, 15 < f.offset ∨ f.offset + f.width ≤ 15 := by decide
theorem witness_GetFieldAnswers : State.reset.cfg.reg? 0#4 = some gateDriveControl
    ∧ valOperand gateDriveControl (gd 0x0200#16 .active .six) = .ok val0
    ∧ val0.codes[(1#4 : FieldIdx).toNat]? = some 0#16 ∧ gateDriveControl.fields.length ≤ (2#4 : FieldIdx).toNat := by decide
theorem witness_WithFieldAnswers : State.reset.cfg.reg? 0#4 = some gateDriveControl ∧ gateDriveControl.wf = true
    ∧ valOperand gateDriveControl (gd 0x0200#16 .active .six) = .ok val0
    ∧ gateDriveControl.fields[(1#4 : FieldIdx).toNat]? = some pwmField
    ∧ pwmField.allows ((2#11 : BitVec 11).setWidth 16) = true
    ∧ gateDriveControl.fields.length ≤ (2#4 : FieldIdx).toNat := by decide
theorem witness_WithFieldAnswers_outside : State.reset.cfg.reg? 0#4 = some gateDriveControl ∧ gateDriveControl.wf = true
    ∧ valOperand gateDriveControl (gd 0x0200#16 .active .six) = .ok val0
    ∧ gateDriveControl.fields[(1#4 : FieldIdx).toNat]? = some pwmField
    ∧ pwmField.allows ((3#11 : BitVec 11).setWidth 16) = false
    ∧ pwmField.allows ((4#11 : BitVec 11).setWidth 16) = false := by decide
theorem witness_GateDriveSetters : valOperand gateDriveControl (gd 0x0200#16 .active .six) = .ok val0 := by decide
theorem witness_FlagSetters : State.reset.cfg.wf = true
    ∧ valOperand (warningAndWatchdog State.reset.cfg.wwFlags) ⟨0xFFFF#16, 0#11⟩ = .ok ⟨0xFFFF#16, List.replicate 10 0#16⟩
    ∧ (9#4 : FieldIdx).toNat < 10 := by decide
theorem witness_CodecRoundTrip : gateDriveControl.wf = true ∧ decodeReg gateDriveControl 0x0200#16 = .ok val0 := by decide
theorem witness_FieldIsolation : gateDriveControl.wf = true ∧ decodeReg gateDriveControl 0x0200#16 = .ok val0
    ∧ gateDriveControl.fields[1]? = some pwmField ∧ pwmField.allows 2#16 = true := by decide
theorem witness_NormalForm : gateDriveControl.wf = true
    ∧ RegVal.validFor ⟨0x0200#16, [1#16, 2#16]⟩ gateDriveControl = true := by decide
theorem witness_SetterAlgebra : (0 : Nat) ≠ 1 ∧ 1 < val0.codes.length := by decide
theorem witness_ValuePortRoundTrip : (warningAndWatchdog defaultWwFlags).wf = true
    ∧ RegVal.validFor ⟨0#16, List.replicate 10 1#16⟩ (warningAndWatchdog defaultWwFlags) = true := by decide
theorem witness_PureTouchesNothing : (Instr.fromWire 0#16).isDriver = false
    ∧ exec (.fromWire 0#16) State.reset = .next { State.reset with rspPure := some (.okWord 0#16) } := ⟨by decide, rfl⟩
theorem witness_ExecuteAccepted : ready.busy = false ∧ (makeRead 0xF#4).constructible = true
    ∧ ({ kind := .read, address := 0xC#4, payload := 1#11 } : CmdWord).constructible = false := by decide
theorem witness_ReadFrameAccepted : readyReread.busy = false ∧ readyReread.cfg.reg? 0#4 = some gateDriveControl
    ∧ readyReread.cfg.hasModifyReread = true := by decide
theorem witness_WriteAccepted : ready.busy = false ∧ ready.cfg.reg? 0#4 = some gateDriveControl ∧ gateDriveControl.wf = true
    ∧ valOperand gateDriveControl (gd 0x07FF#16 .active .six) = .ok ⟨0x07FF#16, [1#16, 0#16]⟩ ∧ 0x07FF#16 &&& 0xF800#16 = 0#16
    ∧ valOperand gateDriveControl (gd 0x0800#16 .active .six) = .ok ⟨0x0800#16, [1#16, 0#16]⟩
    ∧ 0x0800#16 &&& 0xF800#16 ≠ 0#16 := by decide
theorem witness_BusyTurnsDriverAway : (Instr.read 0#4).isDriver = true ∧ State.reset.busy = true
    ∧ Request.asksDriver (.wire 0x8001#16) = true := by decide
theorem witness_ReservedCodesDoNothing : State.reset.cfg.hasModifyReread = false := by decide
theorem witness_StepRunsDecoded : State.reset.cfg.wf = true
    ∧ (presentRequest (.wire 0x8800#16) State.reset).pins = { Pins.quiet with req := some (.wire 0x8800#16) } :: []
    ∧ decodeRequest (.wire 0x8800#16) = .ok (.rd 0x1#4)
    ∧ ({ State.reset with pins := [Pins.quiet] } : State).pins = Pins.quiet :: [] ∧ Pins.quiet.rst = false
    ∧ Pins.quiet.req = none ∧ State.reset.pins = [] := by decide
theorem witness_FetchWordIsRun : State.reset.cfg.wf = true ∧ decodeTableWord 16 0x8800 = some (.rd 0x1#4)
    ∧ (Instr.rd 0x1#4).isDriver = true ∧ decodeTableWord 8 0 = some (.address 0#4)
    ∧ (Instr.address 0#4).isDriver = false := by decide
theorem witness_ResetEdge : State.reset.cfg.wf = true
    ∧ ({ State.reset with pins := [{ Pins.quiet with rst := true }] } : State).pins = { Pins.quiet with rst := true } :: [] := by
  decide
theorem witness_PowerUp : State.reset.cfg.wf = true ∧ State.reset.phase = .hold ∧ State.reset.cnt = State.reset.cfg.nHigh
    ∧ State.reset.opv = false ∧ State.reset.pins = [] := by decide
theorem witness_SetupPhase : (during .read .frame1 .setup 1).phase = .setup ∧ (during .read .frame1 .setup 1).cnt ≠ 0
    ∧ (during .read .frame1 .setup 0).cnt = 0 := by decide
theorem witness_SendPhase : (during .read .frame1 .send 0).phase = .send ∧ Pins.quiet.txDone = false
    ∧ (sendPins .ok).txDone = true ∧ (sendPins .ok).txErr = false
    ∧ (sendPins (.err 255)).txDone = true ∧ (sendPins (.err 255)).txErr = true
    ∧ (sendPins (.err 255)).tErr < 2 ^ (during .read .frame1 .send 0).cfg.terrW := by decide
theorem witness_RecvPhase : (during .read .frame1 .recv 0).phase = .recv ∧ Pins.quiet.rxDone = false
    ∧ (recvPins (.ok 0#16)).rxDone = true ∧ (recvPins (.ok 0#16)).rxErr = false
    ∧ (recvPins (.err 255)).rxDone = true ∧ (recvPins (.err 255)).rxErr = true
    ∧ (recvPins (.err 255)).tErr < 2 ^ (during .read .frame1 .recv 0).cfg.terrW := by decide
theorem witness_ReleasePhase : (during .read .frame1 .release 0).phase = .release
    ∧ (during .read .frame1 .setup 0).phase = .setup
    ∧ ∃ t, tick Pins.quiet (during .read .frame1 .setup 0) = .next t := ⟨rfl, rfl, _, rfl⟩
theorem witness_HoldPhase : (during .execute .frame1 .hold 0).phase = .hold ∧ (during .execute .frame1 .hold 1).cnt ≠ 0
    ∧ (during .execute .frame1 .hold 0).cnt = 0 ∧ (during .execute .frame1 .hold 0).opv = true
    ∧ (during .execute .frame1 .hold 0).op = .execute
    ∧ ({ State.reset with cnt := 0 } : State).phase = .hold ∧ ({ State.reset with cnt := 0 } : State).opv = false := by decide
theorem witness_TransportErrorEndsOperation : ({ during .modify .frame2 .hold 0 with errf := true } : State).phase = .hold
    ∧ ({ during .modify .frame2 .hold 0 with errf := true } : State).cnt = 0
    ∧ ({ during .modify .frame2 .hold 0 with errf := true } : State).opv = true
    ∧ ({ during .modify .frame2 .hold 0 with errf := true } : State).op = .modify := by decide
theorem witness_ModifyCallback : (during .modify .frame1 .hold 0).phase = .hold ∧ (during .modify .frame1 .hold 0).cnt = 0
    ∧ (during .modify .frame1 .hold 0).opv = true ∧ (during .modify .frame1 .hold 0).errf = false
    ∧ (during .modify .frame1 .hold 0).op = .modify ∧ (during .modify .frame1 .hold 0).stage = .frame1
    ∧ (during .modify .frame1 .hold 0).cfg.reg? (during .modify .frame1 .hold 0).reg = some gateDriveControl
    ∧ decodeReg gateDriveControl ({ during .modify .frame1 .hold 0 with rply := 0x0200#16 } : State).rply = .ok val0
    ∧ valOperand gateDriveControl (gd 0x0200#16 .active .one) = .ok ⟨0x0200#16, [1#16, 2#16]⟩
    ∧ decodeReg gateDriveControl ({ during .modify .frame1 .hold 0 with rply := 0x0180#16 } : State).rply
        = .error (.invalidFieldValue 1 3#16)
    ∧ (0b110#11).toNat < 2 ^ codesWidth gateDriveControl.fields
    ∧ validCodes gateDriveControl.fields (unpackCodes gateDriveControl.fields 0b110#11) = false
    ∧ 2 ^ codesWidth gateDriveControl.fields ≤ (8#11).toNat := by decide
theorem witness_DelayCountsKeepMinimums : defaultParams.wf = true
    ∧ ({ defaultParams with tCsSetupMinNs := 0, tClkNs := 1000 } : Params).wf = true := by decide
theorem witness_NoTimeout (ph : Phase) (h : ph = .send ∨ ph = .recv) :
    let s : State := { during .read .frame1 ph 0 with pins := [Pins.quiet, { Pins.quiet with req := some (.wire 0x8800#16) }] }
    s.cfg.wf = true ∧ s.csN = false ∧ (s.phase = .send ∨ s.phase = .recv)
    ∧ (∀ p ∈ s.pins, p.rst = false ∧ (s.phase = .send → p.txDone = false) ∧ (s.phase = .recv → p.rxDone = false))
    ∧ (∀ p ∈ s.pins, ∀ q, p.req = some q → Request.asksDriver q = true)
    ∧ ∃ t, runFor 3 s = .next t ∧ t.phase = s.phase := by
  rcases h with rfl | rfl <;>
    refine ⟨by decide, by decide, by decide, by decide, ?_, _, rfl, by decide⟩ <;>
    simp [Pins.quiet, Request.asksDriver]

theorem seqInv_reset : SeqInv State.reset := by
  constructor <;> simp [State.reset, Phase.framed, defaultParams]

/-- An operation of one frame on the way through its frame. -/
theorem seqInv_hold (w : Word) : SeqInv { during .execute .frame1 .hold 0 with rply := w } := by
  constructor <;> simp [during, State.reset, Phase.framed, stageLegal, defaultParams] <;> decide

/-- T3, the first counting edge. -/
theorem reset_counts : step State.reset = .next { State.reset with cnt := 4 } := next_of (by decide)

theorem witness_OutputsFollowState : SeqInv State.reset ∧ State.reset.csPin = true := ⟨seqInv_reset, rfl⟩
theorem witness_StepKeepsSeqInv : SeqInv State.reset ∧ step State.reset = .next { State.reset with cnt := 4 } :=
  ⟨seqInv_reset, reset_counts⟩
theorem witness_StepKeepsTraceShape : SeqInv State.reset ∧ TraceShape State.reset
    ∧ step State.reset = .next { State.reset with cnt := 4 } := ⟨seqInv_reset, by unfold TraceShape; decide, reset_counts⟩
theorem witness_NoFaultUnderSeqInv : SeqInv { during .execute .frame1 .hold 0 with rply := 0x0401#16 } := seqInv_hold _
theorem witness_ResultOnlyAfterChipSelectHigh : SeqInv { during .execute .frame1 .hold 0 with rply := 0x0401#16 }
    ∧ ∃ t, step { during .execute .frame1 .hold 0 with rply := 0x0401#16 } = .next t ∧ t.rspDrv ≠ none :=
  ⟨seqInv_hold _, _, rfl, by decide⟩
theorem witness_StepKeepsParameters : step State.reset = .next { State.reset with cnt := 4 } := reset_counts
theorem witness_PhaseAndStageOrder : SeqInv State.reset ∧ State.reset.nextPins.rst = false
    ∧ step State.reset = .next { State.reset with cnt := 4 } := ⟨seqInv_reset, by decide, reset_counts⟩
theorem witness_UnspecifiedLatchesUnobservable : State.reset.opv = false ∧ State.reset.phase.framed = false := by decide

/-- A frame answered in its first clocks. -/
def okFrame (w : Word) : FrameIn := ⟨⟨.ok, .ok w⟩, 1, 0⟩

theorem okFrame_fits (w : Word) : (okFrame w).ans.fits defaultParams :=
  ⟨fun _ h => (by cases h), fun _ h => (by cases h)⟩

/-- A transport error at the largest code. -/
theorem errFrame_fits : FrameAns.fits defaultParams ⟨.err 255, .ok 0#16⟩ :=
  ⟨fun _ h => (by cases h; decide), fun _ h => (by cases h)⟩

theorem witness_ExecuteRefinesSource : (makeRead 0x1#4).constructible = true ∧ ready.cfg.wf = true ∧ ready.busy = false
    ∧ (okFrame 0x0401#16).ans.fits ready.cfg
    ∧ ({ ready with pins := reqPins (.rd 0x1#4) :: framePins defaultParams (gd 0#16 .diode .six) (okFrame 0x0401#16) ++ [] } : State).pins
        = reqPins (.rd 0x1#4) :: framePins ready.cfg (gd 0#16 .diode .six) (okFrame 0x0401#16) ++ [] :=
  ⟨by decide, by decide, by decide, okFrame_fits _, rfl⟩
theorem witness_ReadRefinesSource : ready.cfg.wf = true ∧ ready.cfg.reg? 0#4 = some gateDriveControl ∧ ready.busy = false
    ∧ (okFrame 0x0300#16).ans.fits ready.cfg
    ∧ ({ ready with pins := reqPins (.read 0#4) :: framePins defaultParams (gd 0#16 .diode .six) (okFrame 0x0300#16) ++ [] } : State).pins
        = reqPins (.read 0#4) :: framePins ready.cfg (gd 0#16 .diode .six) (okFrame 0x0300#16) ++ [] :=
  ⟨by decide, by decide, by decide, okFrame_fits _, rfl⟩
theorem witness_WriteRefinesSource : ready.cfg.wf = true ∧ ready.cfg.reg? 0#4 = some gateDriveControl
    ∧ valOperand gateDriveControl (gd 0x0200#16 .active .six) = .ok val0 ∧ ready.busy = false ∧ ready.csN = true
    ∧ (okFrame 0x0280#16).ans.fits ready.cfg
    ∧ ({ ready with pins := reqPins (.write 0#4 (gd 0x0200#16 .active .six))
          :: framePins defaultParams (gd 0#16 .diode .six) (okFrame 0x0280#16) ++ [] } : State).pins
        = reqPins (.write 0#4 (gd 0x0200#16 .active .six)) :: framePins ready.cfg (gd 0#16 .diode .six) (okFrame 0x0280#16) ++ [] :=
  ⟨by decide, by decide, by decide, by decide, by decide, okFrame_fits _, rfl⟩

/-- The function `pwm_mode := One` of V12 to V20. -/
def setOne (v : RegVal) : RegVal := v.setCode 1 2#16

theorem callback_one (w : Word) (v0 : RegVal) (h1 : (okFrame 0x0200#16).ans.recv = .ok w)
    (h2 : decodeReg gateDriveControl w = .ok v0) :
    valOperand gateDriveControl (gd 0x0200#16 .active .one) = .ok (setOne v0) := by
  cases h1
  rw [show decodeReg gateDriveControl 0x0200#16 = .ok val0 by decide] at h2
  cases h2; decide

theorem witness_ModifyRefinesSource : ready.cfg.wf = true ∧ ready.cfg.reg? 0#4 = some gateDriveControl ∧ ready.busy = false
    ∧ (okFrame 0x0200#16).ans.fits ready.cfg
    ∧ (∀ (w : Word) (v0 : RegVal), (okFrame 0x0200#16).ans.recv = .ok w → decodeReg gateDriveControl w = .ok v0 →
        valOperand gateDriveControl (gd 0x0200#16 .active .one) = .ok (setOne v0))
    ∧ ∃ s : State, s = { ready with pins := s.pins } ∧ s.pins
        = reqPins (.modify 0#4) :: framePins ready.cfg (gd 0x0200#16 .active .one) (okFrame 0x0200#16)
          ++ Pins.quiet :: framePins ready.cfg (gd 0#16 .diode .six) (okFrame 0x0200#16) ++ [] :=
  ⟨by decide, by decide, by decide, okFrame_fits _, callback_one, { ready with pins := _ }, rfl, rfl⟩
theorem witness_ModifyRereadRefinesSource : readyReread.cfg.wf = true ∧ readyReread.cfg.hasModifyReread = true
    ∧ readyReread.cfg.reg? 0#4 = some gateDriveControl ∧ readyReread.busy = false
    ∧ (okFrame 0x0200#16).ans.fits readyReread.cfg
    ∧ (∀ (w : Word) (v0 : RegVal), (okFrame 0x0200#16).ans.recv = .ok w → decodeReg gateDriveControl w = .ok v0 →
        valOperand gateDriveControl (gd 0x0200#16 .active .one) = .ok (setOne v0))
    ∧ ∃ s : State, s = { readyReread with pins := s.pins } ∧ s.pins
        = reqPins (.modifyReread 0#4) :: framePins readyReread.cfg (gd 0x0200#16 .active .one) (okFrame 0x0200#16)
          ++ Pins.quiet :: framePins readyReread.cfg (gd 0#16 .diode .six) (okFrame 0x0200#16)
          ++ Pins.quiet :: framePins readyReread.cfg (gd 0#16 .diode .six) (okFrame 0x0300#16) ++ [] :=
  ⟨by decide, by decide, by decide, by decide, okFrame_fits _, callback_one, { readyReread with pins := _ }, rfl, rfl⟩

theorem witness_FramesOfOperations :
    (srcWrite defaultParams gateDriveControl ⟨0xFA00#16, [1#16, 2#16]⟩ (okFrame 0#16).ans).2
        = .error (.framing .payloadTooWide)
    ∧ makeWrite gateDriveControl.address (encodeReg gateDriveControl val0) = .ok ⟨.write, 0x7#4, 0x200#11⟩
    ∧ (srcRead defaultParams gateDriveControl ⟨.err 1, .ok 0#16⟩).2 = .error (.transport 1)
    ∧ (srcRead defaultParams gateDriveControl (okFrame 0xFA00#16).ans).2 = .ok ⟨0xFA00#16, [1#16, 0#16]⟩
    ∧ makeWrite gateDriveControl.address (encodeReg gateDriveControl (setOne ⟨0xFA00#16, [1#16, 0#16]⟩))
        = .error .payloadTooWide
    ∧ (srcRead defaultParams gateDriveControl (okFrame 0x0200#16).ans).2 = .ok val0
    ∧ makeWrite gateDriveControl.address (encodeReg gateDriveControl (setOne val0)) = .ok ⟨.write, 0x7#4, 0x300#11⟩
    ∧ (srcWrite defaultParams gateDriveControl (setOne val0) ⟨.err 1, .ok 0#16⟩).2 = .error (.transport 1)
    ∧ (srcWrite defaultParams gateDriveControl (setOne val0) (okFrame 0x0200#16).ans).2 = .ok 0x0200#16 := by decide
theorem witness_HighBitsMakeUnwritable : gateDriveControl.wf = true
    ∧ decodeReg gateDriveControl 0xFA00#16 = .ok ⟨0xFA00#16, [1#16, 0#16]⟩ ∧ 0xFA00#16 &&& 0xF800#16 ≠ 0#16
    ∧ (setOne ⟨0xFA00#16, [1#16, 0#16]⟩).bits = 0xFA00#16
    ∧ (setOne ⟨0xFA00#16, [1#16, 0#16]⟩).validFor gateDriveControl = true := by decide

end Sys2Proof.Tests
end

section
/-! PROOFS. The two delay counts of R5 (`N_SETUP`, `N_HIGH`) against the minimums of R129: the facts about
`Params.clocksFor`, of which both counts are instances. -/

namespace Sys2Proof

theorem Params.tClkNs_pos_of_wf {p : Params} (h : p.wf = true) : 0 < p.tClkNs := by
  simp only [Params.wf, Bool.and_eq_true, decide_eq_true_eq] at h
  obtain ⟨⟨-, hclk⟩, -⟩ := h
  exact hclk

theorem Params.one_le_clocksFor (p : Params) (tNs : Nat) : 1 ≤ p.clocksFor tNs :=
  Nat.le_max_left 1 _

/-- R129: the quotient of R5 is rounded up, so the remainder it drops is less than one clock. -/
theorem Params.le_clocksFor_mul_tClkNs {p : Params} (hclk : 0 < p.tClkNs) (tNs : Nat) :
    tNs ≤ p.clocksFor tNs * p.tClkNs := by
  have hround := Nat.lt_div_mul_add hclk (a := tNs + p.tClkNs - 1)
  calc tNs ≤ (tNs + p.tClkNs - 1) / p.tClkNs * p.tClkNs := by omega
    _ ≤ p.clocksFor tNs * p.tClkNs := Nat.mul_le_mul_right _ (Nat.le_max_right 1 _)

/-- Settles O42: both counts are `clocksFor` of their minimum, and a build that meets the checks has a clock period
above zero. -/
theorem delayCountsKeepMinimums : Obligations.DelayCountsKeepMinimums := by
  intro p hwf
  have hclk := Params.tClkNs_pos_of_wf hwf
  exact ⟨Params.le_clocksFor_mul_tClkNs hclk p.tCsSetupMinNs, Params.le_clocksFor_mul_tClkNs hclk p.tCsHighMinNs,
    p.one_le_clocksFor p.tCsSetupMinNs, p.one_le_clocksFor p.tCsHighMinNs⟩

end Sys2Proof
end

section
/-! PROOFS. The sequencer's invariant under the state's updates: one lemma for each way a clock changes the latches
(frame start, a move inside a frame, a count, the end of the hold, the end of an operation, a reset), and from them the
invariant under a request, a transition and a clock. -/

namespace Sys2Proof.Machine

/-- TO_WIRE is undone by the parse of R95. -/
theorem parseCmd_toWire (c : CmdWord) : parseCmd (toWire c) = c := by
  rw [toWire_eq, parse_encodeCmd]

/-- Which frames an operation has does not depend on the phase outside `IDLE` (R114). -/
theorem stageLegal_of_ne_idle {o : HostOp} {st : Stage} {ph ph' : Phase} (h : stageLegal o st ph = true)
    (hph : ph' ≠ .idle) : stageLegal o st ph' = true := by
  unfold stageLegal at h ⊢
  split at h <;> simp_all

/-- The operation layer's three ways to stand in `IDLE` with an operation in flight (R112, R113). -/
theorem stageLegal_idle {o : HostOp} {st : Stage} (h : stageLegal o st .idle = true) :
    (o = .modify ∧ st = .frame1) ∨ (o = .modifyReread ∧ st = .frame1) ∨ (o = .modifyReread ∧ st = .frame2) := by
  unfold stageLegal at h
  split at h <;> simp_all

namespace SeqInv

variable {s : State}

/-- Inside a frame an operation is in flight. -/
theorem opv_of_framed (h : SeqInv s) (hf : s.phase.framed = true) : s.opv = true := by
  by_contra hopv
  obtain ⟨-, hrest⟩ := h.atRest (by simpa using hopv)
  simp [hf] at hrest

/-- No error is latched before the way out of the frame. -/
theorem errf_of_framed (h : SeqInv s) (hf : s.phase.framed = true) (hrel : s.phase ≠ .release) : s.errf = false := by
  by_contra herr
  rcases h.errLatched (h.opv_of_framed hf) (by simpa using herr) with hph | hph
  · exact hrel hph
  · simp [hph, Phase.framed] at hf

/-- The invariant speaks of no pin, response or event. -/
theorem withOutputs (h : SeqInv s) (ps : List Pins) (a b : Option Response) (tr : List Event) :
    SeqInv { s with pins := ps, rspPure := a, rspDrv := b, trace := tr } :=
  ⟨h.chipSelect, h.cntSetup, h.cntHold, h.cntElse, h.atRest, h.inFlight, h.typed, h.optional, h.errLatched, h.cmdWord,
    h.terrWidth, h.valHeld⟩

/-- A count goes down (R102, R107). -/
theorem countDown (h : SeqInv s) (hph : s.phase = .setup ∨ s.phase = .hold) : SeqInv { s with cnt := s.cnt - 1 } :=
  { h with
    cntSetup := fun hp => (Nat.sub_le _ _).trans (h.cntSetup hp)
    cntHold := fun hp => (Nat.sub_le _ _).trans (h.cntHold hp)
    cntElse := fun hs hh => (hph.elim hs hh).elim }

/-- A move inside a frame, with an error latched or a reply taken on the way out (R102 to R104). -/
theorem moveInFrame (h : SeqInv s) (hf : s.phase.framed = true) (hcnt : s.cnt = 0) (ph : Phase) (w : Word) (b : Bool)
    (e : Nat) (tr : List Event) (hph : ph.framed = true) (hb : b = true → ph = .release) (he : e < 2 ^ s.cfg.terrW) :
    SeqInv { s with phase := ph, rply := w, errf := b, terr := e, trace := tr } :=
  have hopv := h.opv_of_framed hf
  have hidle : ph ≠ .idle := by rintro rfl; simp [Phase.framed] at hph
  { chipSelect := by simp [h.chipSelect, hf, hph]
    cntSetup := by simp [hcnt]
    cntHold := by simp [hcnt]
    cntElse := fun _ _ => hcnt
    atRest := by simp [hopv]
    inFlight := fun _ => stageLegal_of_ne_idle (h.inFlight hopv) hidle
    typed := h.typed
    optional := h.optional
    errLatched := fun _ hb' => .inl (hb hb')
    cmdWord := h.cmdWord
    terrWidth := he
    valHeld := fun _ _ hi => (hidle hi).elim }

/-- Chip-select is raised (R106). -/
theorem release (h : SeqInv s) (hf : s.phase.framed = true) : SeqInv (releaseFrame s) :=
  have hopv := h.opv_of_framed hf
  { chipSelect := rfl
    cntSetup := by simp
    cntHold := fun _ => le_rfl
    cntElse := by simp
    atRest := by simp [hopv]
    inFlight := fun _ => stageLegal_of_ne_idle (h.inFlight hopv) (by simp)
    typed := h.typed
    optional := h.optional
    errLatched := by simp
    cmdWord := h.cmdWord
    terrWidth := h.terrWidth
    valHeld := by simp }

/-- The hold is over and the operation, if there is one, has another frame (R107, R112, R113). -/
theorem holdOver (h : SeqInv s) (hph : s.phase = .hold) (hcnt : s.cnt = 0) (v : RegVal) (tr : List Event)
    (hst : s.opv = true → stageLegal s.op s.stage .idle = true) (herr : s.opv = true → s.errf = false)
    (hval : s.opv = true → s.stage = .frame1 → ∀ R, s.cfg.reg? s.reg = some R → v.validFor R = true) :
    SeqInv { s with phase := .idle, val := v, trace := tr } :=
  { chipSelect := by simp [h.chipSelect, hph, Phase.framed]
    cntSetup := by simp
    cntHold := by simp
    cntElse := fun _ _ => hcnt
    atRest := fun ho => ⟨(h.atRest ho).1, rfl⟩
    inFlight := hst
    typed := h.typed
    optional := h.optional
    errLatched := fun ho he => by simp [herr ho] at he
    cmdWord := h.cmdWord
    terrWidth := h.terrWidth
    valHeld := fun ho hst1 _ => hval ho hst1 }

end SeqInv

/-- A frame starts as a frame of the operation in flight (R101, R108). -/
theorem seqInv_startFrame {st : Stage} {c : CmdWord} {s : State} (hopv : s.opv = true)
    (hleg : stageLegal s.op st .setup = true) (htyp : s.op ≠ .execute → (s.cfg.reg? s.reg).isSome = true)
    (hopt : s.op = .modifyReread → s.cfg.hasModifyReread = true) (hc : c.constructible = true)
    (hterr : s.terr < 2 ^ s.cfg.terrW) : SeqInv (startFrame st c s) where
  chipSelect := rfl
  cntSetup _ := le_rfl
  cntHold := by simp
  cntElse := by simp
  atRest := by simp [hopv]
  inFlight _ := hleg
  typed _ := htyp
  optional _ := hopt
  errLatched := by simp
  cmdWord _ := by simpa [parseCmd_toWire] using hc
  terrWidth := hterr
  valHeld := by simp

/-- The next frame of an operation in flight starts (R112, R113). -/
theorem SeqInv.startNext {s : State} (h : SeqInv s) {st : Stage} {c : CmdWord} (hopv : s.opv = true)
    (hleg : stageLegal s.op st .setup = true) (hc : c.constructible = true) : SeqInv (startFrame st c s) :=
  seqInv_startFrame hopv hleg (h.typed hopv) (h.optional hopv) hc h.terrWidth

/-- An operation ends with no frame open (R108). -/
theorem seqInv_endOp {r : Response} {s : State} (hph : s.phase = .idle) (hcs : s.csN = true) (hcnt : s.cnt = 0)
    (hterr : s.terr < 2 ^ s.cfg.terrW) : SeqInv (endOp r s) where
  chipSelect := by simp [hph, hcs, Phase.framed]
  cntSetup := by simp [hcnt]
  cntHold := by simp [hcnt]
  cntElse _ _ := hcnt
  atRest _ := ⟨rfl, by simp [hph, Phase.framed]⟩
  inFlight := by simp
  typed := by simp
  optional := by simp
  errLatched := by simp
  cmdWord := by simp
  terrWidth := hterr
  valHeld := by simp

/-- R25. -/
theorem seqInv_resetState (s : State) : SeqInv (resetState s) where
  chipSelect := rfl
  cntSetup := by simp
  cntHold _ := le_rfl
  cntElse := by simp
  atRest _ := ⟨rfl, rfl⟩
  inFlight := by simp
  typed := by simp
  optional := by simp
  errLatched := by simp
  cmdWord := by simp
  terrWidth := Nat.two_pow_pos _
  valHeld := by simp

/-- A request keeps the invariant. -/
theorem SeqInv.of_execCase {s t : State} (h : SeqInv s) (hc : ExecCase s t) : SeqInv t := by
  cases hc with
  | pure t ht => rw [ht]; exact h.withOutputs _ _ _ _
  | framing r _ => exact h.withOutputs _ _ _ _
  | accept op r c _ hcon hop htyp hopt => exact seqInv_startFrame rfl hop htyp hopt hcon h.terrWidth

/-- A transition of the sequencer keeps the invariant. -/
theorem SeqInv.of_tickCase {p : Pins} {s t : State} (h : SeqInv s) (hc : TickCase p s t) : SeqInv t := by
  cases hc with
  | rest => exact h
  | wait => exact h
  | write c hph hopv hst hop hcon =>
    exact h.startNext hopv (by rcases hop with hop | hop <;> rw [hop] <;> rfl) hcon
  | reread R hph hopv hop hst => exact h.startNext hopv (by rw [hop]; rfl) rfl
  | writeBad e hph hopv =>
    exact seqInv_endOp hph (by simp [h.chipSelect, hph, Phase.framed]) (h.cntElse (by simp [hph]) (by simp [hph]))
      h.terrWidth
  | setupCount hph => exact h.countDown (.inl hph)
  | holdCount hph => exact h.countDown (.inr hph)
  | setupEnd hph hcnt =>
    have hf : s.phase.framed = true := by rw [hph]; rfl
    exact h.moveInFrame hf hcnt .send _ _ _ _ rfl (by simp [h.errf_of_framed hf (by simp [hph])]) h.terrWidth
  | sendOk hph =>
    have hf : s.phase.framed = true := by rw [hph]; rfl
    exact h.moveInFrame hf (h.cntElse (by simp [hph]) (by simp [hph])) .recv _ _ _ _ rfl
      (by simp [h.errf_of_framed hf (by simp [hph])]) h.terrWidth
  | sendErr e hph he =>
    exact h.moveInFrame (by rw [hph]; rfl) (h.cntElse (by simp [hph]) (by simp [hph])) .release _ _ _ _ rfl
      (fun _ => rfl) he
  | recvErr e hph he =>
    exact h.moveInFrame (by rw [hph]; rfl) (h.cntElse (by simp [hph]) (by simp [hph])) .release _ _ _ _ rfl
      (fun _ => rfl) he
  | recvOk w hph =>
    exact h.moveInFrame (by rw [hph]; rfl) (h.cntElse (by simp [hph]) (by simp [hph])) .release _ _ _ _ rfl
      (fun _ => rfl) h.terrWidth
  | release hph => exact h.release (by rw [hph]; rfl)
  | holdRest hph hcnt hopv =>
    exact h.holdOver hph hcnt _ _ (by simp [hopv]) (by simp [hopv]) (by simp [hopv])
  | holdEnd r hph hcnt hopv => exact seqInv_endOp rfl (by simp [h.chipSelect, hph, Phase.framed]) hcnt h.terrWidth
  | callback R v hph hcnt hopv herr hst hop hR hv =>
    exact h.holdOver hph hcnt _ _ (fun _ => by rcases hop with hop | hop <;> rw [hop, hst] <;> rfl) (fun _ => herr)
      (fun _ _ Q hQ => by rw [hR] at hQ; cases hQ; exact hv)
  | discard hph hcnt hopv herr hst hop =>
    exact h.holdOver hph hcnt _ _ (fun _ => by rw [hop, hst]; rfl) (fun _ => herr) (by simp [hst])

/-- Settles O45: a clock is a reset, a transition of the sequencer or an accepted request, and each keeps the
invariant. -/
theorem stepKeepsSeqInv : Obligations.StepKeepsSeqInv := by
  intro s t h hstep
  have clear (a : Option Response) : SeqInv { s.dropPins.clearStrobes with rspPure := a } := h.withOutputs _ _ _ _
  cases (step_case s t hstep).2 with
  | reset => exact seqInv_resetState _
  | tick _ _ ht => exact (clear none).of_tickCase (tick_case _ _ _ ht)
  | pureTick r _ _ ht => exact (clear r).of_tickCase (tick_case _ _ _ ht)
  | exec _ _ _ hc => exact (clear none).of_execCase hc

/-- Settles O46: the state after reset is what a reset edge leaves, with an empty trace. -/
theorem resetMeetsSeqInv : Obligations.ResetMeetsSeqInv :=
  ⟨(seqInv_resetState State.reset).withOutputs [] none none [], rfl⟩

end Sys2Proof.Machine
end

section
/-! PROOFS. No fault under the sequencer's invariant: what `exec` and the operands can stop with is a refusal, and the
operation layer meets only the frames the invariant names. -/

namespace Sys2Proof.Machine

theorem onOk_ne_fault {α : Type} {x : Except Refusal α} {k : α → Out} {f : Fault} (hk : ∀ a, k a ≠ .fault f) :
    onOk x k ≠ .fault f := by
  cases x with
  | ok a => exact hk a
  | error r => simp [onOk]

theorem onNext_ne_fault {o : Out} {k : State → Out} {f : Fault} (ho : o ≠ .fault f)
    (hk : ∀ t, o = .next t → k t ≠ .fault f) : onNext o k ≠ .fault f := by
  cases o with
  | next t => exact hk t rfl
  | fault g => exact ho
  | refused r => simp [onNext]

theorem respondPure_ne_fault {r : Response} {s : State} {f : Fault} : respondPure r s ≠ .fault f := by
  simp [respondPure]

theorem setField_ne_fault {R : RegDesc} {v : ValPort} {k : FieldIdx} {x : BitVec 11} {s : State} {f : Fault} :
    setField R v k x s ≠ .fault f :=
  onOk_ne_fault fun _ => onOk_ne_fault fun _ => onOk_ne_fault fun _ => respondPure_ne_fault

theorem whenReady_ne_fault {s : State} {o : Out} {f : Fault} (ho : o ≠ .fault f) : whenReady s o ≠ .fault f := by
  unfold whenReady
  split
  · simp
  · exact ho

theorem acceptExecute_ne_fault {c : CmdWord} {s : State} {f : Fault} : acceptExecute c s ≠ .fault f :=
  whenReady_ne_fault (by split <;> simp)

theorem acceptRead_ne_fault {o : HostOp} {r : RegIdx} {s : State} {f : Fault} : acceptRead o r s ≠ .fault f :=
  whenReady_ne_fault (onOk_ne_fault fun _ => by simp)

/-- In the clock that presents it an instruction is answered, accepted, turned away or refused. -/
theorem exec_ne_fault (i : Instr) (s : State) (f : Fault) : exec i s ≠ .fault f := by
  cases i with
  | rd a => exact acceptExecute_ne_fault
  | wr a d => exact acceptExecute_ne_fault
  | execute c => exact acceptExecute_ne_fault
  | read r => exact acceptRead_ne_fault
  | modify r => exact acceptRead_ne_fault
  | modifyReread r =>
    simp only [exec, execModifyReread]
    split
    · exact acceptRead_ne_fault
    · simp
  | write r v => exact whenReady_ne_fault (onOk_ne_fault fun _ => onOk_ne_fault fun _ => by split <;> simp)
  | address r => exact onOk_ne_fault fun _ => respondPure_ne_fault
  | decode r raw => exact onOk_ne_fault fun _ => by split <;> exact respondPure_ne_fault
  | encode r v => exact onOk_ne_fault fun _ => onOk_ne_fault fun _ => respondPure_ne_fault
  | getField r v k =>
    refine onOk_ne_fault fun _ => onOk_ne_fault fun _ => ?_
    split
    · exact respondPure_ne_fault
    · simp
  | withField r v k x => exact onOk_ne_fault fun _ => setField_ne_fault
  | makeRead a => exact respondPure_ne_fault
  | makeWrite a p => simp only [exec, execMakeWrite]; split <;> exact respondPure_ne_fault
  | toWire c =>
    simp only [exec, execToWire]
    split
    · exact respondPure_ne_fault
    · simp
  | fromWire raw => exact respondPure_ne_fault
  | reservedE => simp [exec, execReservedE]
  | reservedF => simp [exec, execReservedF]
  | withCommOption v x => exact setField_ne_fault
  | withPwmMode v x => exact setField_ne_fault
  | withWwFlag v j b => exact setField_ne_fault

theorem regOperand_of_isSome {p : Params} {r : RegIdx} (h : (p.reg? r).isSome = true) : ∃ R, regOperand p r = .ok R := by
  obtain ⟨R, hR⟩ := Option.isSome_iff_exists.1 h
  exact ⟨R, by simp [regOperand, hR]⟩

/-- In `IDLE` the operation in flight has another frame (R112, R113). -/
theorem nextFrame_ne_fault {s : State} {f : Fault} (hleg : stageLegal s.op s.stage .idle = true)
    (htyp : s.op ≠ .execute → (s.cfg.reg? s.reg).isSome = true) : nextFrame s ≠ .fault f := by
  have hcase := stageLegal_idle hleg
  obtain ⟨R, hR⟩ := regOperand_of_isSome (htyp (by rintro he; simp [he] at hcase))
  rcases hcase with ⟨hop, hst⟩ | ⟨hop, hst⟩ | ⟨hop, hst⟩ <;> simp only [nextFrame, hR, hop, hst]
  · split <;> simp
  · split <;> simp
  · simp

theorem applyModify_ne_fault {mr : ValPort} {R : RegDesc} {s : State} {f : Fault} : applyModify mr R s ≠ .fault f := by
  unfold applyModify
  split
  · exact onOk_ne_fault fun _ => by simp
  · simp

/-- A frame of a typed operation in one of its own stages has a meaning when it ends (R110 to R113). -/
theorem typedFrameDone_ne_fault {mr : ValPort} {R : RegDesc} {s : State} {f : Fault}
    (hleg : stageLegal s.op s.stage .hold = true) (hop : s.op ≠ .execute) : typedFrameDone mr R s ≠ .fault f := by
  unfold typedFrameDone
  split
  case h_3 | h_5 => exact applyModify_ne_fault
  case h_8 => unfold stageLegal at hleg; split at hleg <;> simp_all
  all_goals simp

/-- A frame of an operation in one of its own stages has a meaning when it ends (R107). -/
theorem frameDone_ne_fault {mr : ValPort} {s : State} {f : Fault} (hleg : stageLegal s.op s.stage .hold = true)
    (htyp : s.op ≠ .execute → (s.cfg.reg? s.reg).isSome = true) : frameDone mr s ≠ .fault f := by
  by_cases hop : s.op = .execute
  · simp only [frameDone, hop]; split <;> simp
  · obtain ⟨R, hR⟩ := regOperand_of_isSome (htyp hop)
    have hdone : typedFrameDone mr R s ≠ .fault f := typedFrameDone_ne_fault hleg hop
    unfold frameDone
    split
    · contradiction
    case h_2 | h_3 | h_4 | h_5 =>
      rw [hR]
      split
      · simp
      · exact hdone
    all_goals simp_all [stageLegal]

/-- A transition of the sequencer under its invariant. -/
theorem SeqInv.tick_ne_fault {s : State} (h : SeqInv s) (p : Pins) (f : Fault) : tick p s ≠ .fault f := by
  unfold tick
  split <;> rename_i hph
  · split <;> rename_i hopv
    · exact nextFrame_ne_fault (hph ▸ h.inFlight hopv) (h.typed hopv)
    · simp
  · simp
  · unfold tickSend
    split
    · simp
    · split
      · exact onOk_ne_fault fun _ => by simp
      · simp
  · unfold tickRecv
    split
    · simp
    · split
      · exact onOk_ne_fault fun _ => by simp
      · simp
  · simp
  · unfold tickHold
    split
    · split <;> rename_i hopv
      · exact frameDone_ne_fault (hph ▸ h.inFlight hopv) (h.typed hopv)
      · simp
    · simp

/-- A clock with a request under the sequencer's invariant. -/
theorem SeqInv.clockRequest_ne_fault {s : State} (h : SeqInv s) (p : Pins) (q : Request) (f : Fault) :
    clockRequest p q s ≠ .fault f := by
  unfold clockRequest
  split
  · refine onNext_ne_fault (exec_ne_fault _ _ _) fun t ht => ?_
    have hinv : SeqInv t := h.of_execCase (exec_case _ _ _ ht)
    split
    · exact hinv.tick_ne_fault p f
    · simp
  · split
    · exact h.tick_ne_fault p f
    · simp

/-- Settles O48: `exec` has no fault, and the sequencer's invariant rules out the frames its one fault answers. -/
theorem noFaultUnderSeqInv : Obligations.NoFaultUnderSeqInv := by
  intro s f h
  have clear : SeqInv s.dropPins.clearStrobes := h.withOutputs _ _ _ _
  unfold step clock
  split
  · split
    · simp
    · split
      · exact clear.tick_ne_fault _ f
      · exact clear.clockRequest_ne_fault _ _ f
  · simp

end Sys2Proof.Machine
end

section
/-! PROOFS. The parameters, the phase and the stage from one clock to the next (R21, R23). -/

namespace Sys2Proof.Machine

theorem ExecCase.cfg_eq {s t : State} (hc : ExecCase s t) : t.cfg = s.cfg := by
  cases hc with
  | pure t ht => rw [ht]
  | framing => rfl
  | accept => rfl

theorem TickCase.cfg_eq {p : Pins} {s t : State} (hc : TickCase p s t) : t.cfg = s.cfg := by
  cases hc <;> rfl

/-- Settles O50: no request and no transition writes the parameters, and a reset keeps them. -/
theorem stepKeepsParameters : Obligations.StepKeepsParameters := by
  intro s t hstep
  cases (step_case s t hstep).2 with
  | reset => rfl
  | tick _ _ ht => exact (tick_case _ _ _ ht).cfg_eq
  | pureTick _ _ _ ht => exact (tick_case _ _ _ ht).cfg_eq
  | exec _ _ _ hc => exact hc.cfg_eq

/-- R21: the phase stays or moves one way round, with the one shortcut. -/
def PhaseMove (a b : Phase) : Prop :=
  b = a ∨ (a, b) ∈ [(Phase.idle, Phase.setup), (.setup, .send), (.send, .recv), (.send, .release),
    (.recv, .release), (.release, .hold), (.hold, .idle)]

/-- R21: the stage stays, returns to `NONE` or moves to the next frame. -/
def StageMove (a b : Stage) : Prop :=
  b = a ∨ b = .none ∨ (a, b) ∈ [(Stage.none, Stage.frame1), (.frame1, .frame2), (.frame2, .frame3)]

theorem TickCase.phaseMove {p : Pins} {s t : State} (hc : TickCase p s t) : PhaseMove s.phase t.phase := by
  cases hc with
  | rest | wait | writeBad | setupCount | holdCount => exact .inl rfl
  | write _ hph | reread _ hph | setupEnd hph | sendErr _ hph | sendOk hph | recvErr _ hph | recvOk _ hph | release hph
  | holdRest hph | holdEnd _ hph | callback _ _ hph | discard hph => exact .inr (by simp [hph])

theorem TickCase.stageMove {p : Pins} {s t : State} (hc : TickCase p s t) : StageMove s.stage t.stage := by
  cases hc with
  | write _ _ _ hst => exact .inr (.inr (by simp [hst]))
  | reread _ _ _ _ hst => exact .inr (.inr (by simp [hst]))
  | writeBad | holdEnd => exact .inr (.inl rfl)
  | _ => exact .inl rfl

/-- A request is accepted only at rest: in `IDLE` with the stage `NONE`. -/
theorem ExecCase.moves {s t : State} (hc : ExecCase s t) (h : SeqInv s) :
    PhaseMove s.phase t.phase ∧ StageMove s.stage t.stage := by
  cases hc with
  | pure t ht => rw [ht]; exact ⟨.inl rfl, .inl rfl⟩
  | framing => exact ⟨.inl rfl, .inl rfl⟩
  | accept op r c hb =>
    obtain ⟨hopv, hph⟩ : s.opv = false ∧ s.phase = .idle := by simpa [State.busy] using hb
    obtain ⟨hst, -⟩ := h.atRest hopv
    exact ⟨.inr (by simp [hph]), .inr (.inr (by simp [hst]))⟩

/-- Settles O51: a transition moves both by its own case, and a request is accepted only at rest. -/
theorem phaseAndStageOrder : Obligations.PhaseAndStageOrder := by
  intro s t h hrst hstep
  cases (step_case s t hstep).2 with
  | reset hr => simp [hrst] at hr
  | tick _ _ ht => exact ⟨(tick_case _ _ _ ht).phaseMove, (tick_case _ _ _ ht).stageMove⟩
  | pureTick _ _ _ ht => exact ⟨(tick_case _ _ _ ht).phaseMove, (tick_case _ _ _ ht).stageMove⟩
  | exec _ _ _ hc => exact hc.moves (h.withOutputs _ _ _ _)

end Sys2Proof.Machine
end

section
/-! PROOFS. The state after reset, the outputs that follow the state, and what the decoder reads. -/

namespace Sys2Proof.Machine

/-- Settles O33: the values of R25, read off the reset state; the default build passes the checks of R10. -/
theorem resetState_values : Obligations.ResetState :=
  ⟨rfl, rfl, rfl, rfl, rfl, rfl, rfl, rfl, rfl, by decide⟩

theorem State.busy_iff (s : State) : s.busy = true ↔ s.opv = true ∨ s.phase ≠ .idle := by
  simp [State.busy]

theorem State.txReq_iff (s : State) : s.txReq = true ↔ s.phase = .send := by
  simp [State.txReq]

theorem State.rxReq_iff (s : State) : s.rxReq = true ↔ s.phase = .recv := by
  simp [State.rxReq]

/-- R130, R17: a transport request is up only while chip-select is low. -/
theorem SeqInv.noRequest_of_csN {s : State} (h : SeqInv s) (hcs : s.csN = true) : s.txReq = false ∧ s.rxReq = false := by
  have hframed : s.phase.framed = false := by simpa [hcs] using h.chipSelect
  constructor
  · exact Bool.eq_false_iff.2 fun ht => by rw [s.txReq_iff.1 ht] at hframed; cases hframed
  · exact Bool.eq_false_iff.2 fun hr => by rw [s.rxReq_iff.1 hr] at hframed; cases hframed

/-- The status on the response ports is the response's own (R61, R64). -/
theorem Response.ports_status (r : Response) : r.ports.status = r.status := by
  cases r with
  | errDecode e => cases e; rfl
  | errDriver e =>
    cases e with
    | framing | transport => rfl
    | decode d => cases d; rfl
  | _ => rfl

/-- Settles O44: the outputs by the lemmas above, the codes and the ports case by case. -/
theorem outputsFollowState : Obligations.OutputsFollowState := by
  refine ⟨fun s => ⟨s.busy_iff, rfl, rfl, s.txReq_iff, s.rxReq_iff, ?_, SeqInv.noRequest_of_csN⟩,
    fun _ _ _ _ => ⟨rfl, rfl, rfl, rfl, rfl⟩, fun _ _ _ => ⟨rfl, rfl, rfl, rfl, rfl, rfl⟩, Response.ports_status,
    fun _ _ => ⟨rfl, rfl, rfl, rfl⟩, fun _ => ⟨rfl, rfl⟩⟩
  rintro ⟨ht, hr⟩
  simp [s.txReq_iff.1 ht, State.rxReq] at hr

/-- A command word the decoder takes is constructible (R15, D22). -/
theorem decodeCmd_constructible {w : Word} {c : CmdWord} (h : decodeCmd w = .ok c) : c.constructible = true := by
  unfold decodeCmd at h
  split at h
  · cases h; assumption
  · cases h

/-- A host request whose operand is a command word decodes to its operation on a constructible one. -/
theorem decodeCmd_map_ok {w : Word} {g : CmdWord → Instr} {i : Instr} (h : (decodeCmd w).map g = .ok i) :
    ∃ c : CmdWord, c.constructible = true ∧ i = g c := by
  cases hd : decodeCmd w with
  | error e => simp [hd, Except.map] at h
  | ok c =>
    rw [hd] at h
    cases h
    exact ⟨c, decodeCmd_constructible hd, rfl⟩

/-- A bare wire word is an RD or a WR (R52). -/
theorem decodeWire_ok {w : Word} {i : Instr} (h : decodeWire w = .ok i) : (∃ a, i = .rd a) ∨ ∃ a d, i = .wr a d := by
  unfold decodeWire at h
  split at h
  · cases h
  · split at h
    · cases h; exact .inl ⟨_, rfl⟩
    · cases h; exact .inr ⟨_, _, rfl⟩

/-- Settles O3: only TO_WIRE and EXECUTE carry an operand the decoder checks, and no code is that of a second name (log entry 9). -/
theorem decodedIsWellFormed : Obligations.DecodedIsWellFormed := by
  intro q i h
  cases q with
  | wire w =>
    rcases decodeWire_ok h with ⟨a, rfl⟩ | ⟨a, d, rfl⟩
    · exact ⟨rfl, rfl⟩
    · exact ⟨rfl, rfl⟩
  | host p =>
    simp only [decodeRequest, decodeHost] at h
    split at h
    case h_8 | h_10 =>
      obtain ⟨c, hc, rfl⟩ := decodeCmd_map_ok h
      exact ⟨hc, rfl⟩
    all_goals cases h; exact ⟨rfl, rfl⟩

end Sys2Proof.Machine
end

section
/-! PROOFS. Two runs that differ in the unspecified latches (R25, U10). The six latches are named as one record; `Hides`
says where a state lets them differ and no later clock can tell; `SameButLatches` says that two outcomes differ there at
most, and every function of the clock keeps it. -/

namespace Sys2Proof.Machine

/-- The six latches R25 leaves unspecified. -/
structure Latches where
  op   : HostOp
  reg  : RegIdx
  cmd  : Word
  rply : Word
  terr : Nat
  val  : RegVal

/-- The state with other values in the six latches. -/
def State.latch (s : State) (l : Latches) : State :=
  { s with op := l.op, reg := l.reg, cmd := l.cmd, rply := l.rply, terr := l.terr, val := l.val }

/-- The six latches of a state. -/
def State.latches (s : State) : Latches where
  op := s.op
  reg := s.reg
  cmd := s.cmd
  rply := s.rply
  terr := s.terr
  val := s.val

@[simp] theorem State.latch_cfg (s : State) (l : Latches) : (s.latch l).cfg = s.cfg := rfl
@[simp] theorem State.latch_phase (s : State) (l : Latches) : (s.latch l).phase = s.phase := rfl
@[simp] theorem State.latch_cnt (s : State) (l : Latches) : (s.latch l).cnt = s.cnt := rfl
@[simp] theorem State.latch_opv (s : State) (l : Latches) : (s.latch l).opv = s.opv := rfl
@[simp] theorem State.latch_stage (s : State) (l : Latches) : (s.latch l).stage = s.stage := rfl
@[simp] theorem State.latch_errf (s : State) (l : Latches) : (s.latch l).errf = s.errf := rfl
@[simp] theorem State.latch_busy (s : State) (l : Latches) : (s.latch l).busy = s.busy := rfl
@[simp] theorem State.latch_nextPins (s : State) (l : Latches) : (s.latch l).nextPins = s.nextPins := rfl
@[simp] theorem State.latch_op (s : State) (l : Latches) : (s.latch l).op = l.op := rfl
@[simp] theorem State.latch_reg (s : State) (l : Latches) : (s.latch l).reg = l.reg := rfl
@[simp] theorem State.latch_cmd (s : State) (l : Latches) : (s.latch l).cmd = l.cmd := rfl
@[simp] theorem State.latch_rply (s : State) (l : Latches) : (s.latch l).rply = l.rply := rfl
@[simp] theorem State.latch_terr (s : State) (l : Latches) : (s.latch l).terr = l.terr := rfl
@[simp] theorem State.latch_val (s : State) (l : Latches) : (s.latch l).val = l.val := rfl

/-- What the operation in flight will still read of the six latches is as the state has it: the operation and the command
word; the register if the operation is typed (R16); the error once it is latched, else the reply once it is in; `S.VAL`
while the write frame is due (R112). EXECUTE is never between two frames. -/
structure Loaded (s : State) (l : Latches) : Prop where
  op : l.op = s.op
  cmd : l.cmd = s.cmd
  reg : s.op ≠ .execute → l.reg = s.reg
  terr : s.errf = true → l.terr = s.terr
  rply : s.errf = false → s.phase = .release ∨ s.phase = .hold → l.rply = s.rply
  val : s.phase = .idle → s.stage = .frame1 → l.val = s.val
  betweenFrames : s.phase = .idle → s.op ≠ .execute

/-- The six latches can hold `l` instead, and no later clock can tell. -/
structure Hides (s : State) (l : Latches) : Prop where
  atRest : s.opv = false → s.phase.framed = false
  inFlight : s.opv = true → Loaded s l

/-- Two outcomes: next states that differ in hidden latches at most, or the same stop. -/
def SameButLatches : Out → Out → Prop
  | .next t, .next t' => ∃ l, t' = t.latch l ∧ Hides t l
  | .fault f, .fault f' => f = f'
  | .refused x, .refused x' => x = x'
  | _, _ => False

theorem Hides.next {t : State} {l : Latches} (h : Hides t l) : SameButLatches (.next t) (.next (t.latch l)) :=
  ⟨l, rfl, h⟩

/-- With nothing in flight and no frame open everything is hidden. -/
theorem hides_atRest {s : State} (hopv : s.opv = false) (hf : s.phase.framed = false) (l : Latches) : Hides s l :=
  ⟨fun _ => hf, by simp [hopv]⟩

/-- What is loaded is hidden. -/
theorem Loaded.hides {s : State} {l : Latches} (hopv : s.opv = true) (h : Loaded s l) : Hides s l :=
  ⟨by simp [hopv], fun _ => h⟩

theorem Hides.opv_of_framed {s : State} {l : Latches} (h : Hides s l) (hf : s.phase.framed = true) : s.opv = true := by
  by_contra hopv
  simp [h.atRest (by simpa using hopv)] at hf

/-- The pins, the responses and the trace play no part. -/
theorem Hides.withOutputs {s : State} {l : Latches} (h : Hides s l) (ps : List Pins) (a b : Option Response)
    (tr : List Event) : Hides { s with pins := ps, rspPure := a, rspDrv := b, trace := tr } l :=
  ⟨h.atRest, fun ho =>
    have hl := h.inFlight ho
    ⟨hl.op, hl.cmd, hl.reg, hl.terr, hl.rply, hl.val, hl.betweenFrames⟩⟩

/-! ## Operands and continuations -/

theorem sameButLatches_onOk {α : Type} (x : Except Refusal α) {k k' : α → Out}
    (hk : ∀ a, SameButLatches (k a) (k' a)) : SameButLatches (onOk x k) (onOk x k') := by
  cases x with
  | ok a => exact hk a
  | error r => rfl

/-- A condition on what is no latch. -/
theorem sameButLatches_ite {c : Prop} {d d' : Decidable c} {o o' u u' : Out} (ho : c → SameButLatches o o')
    (hu : ¬c → SameButLatches u u') : SameButLatches (@ite _ c d o u) (@ite _ c d' o' u') := by
  by_cases hc : c
  · simpa only [if_pos hc] using ho hc
  · simpa only [if_neg hc] using hu hc

theorem SameButLatches.onNext {o o' : Out} {k k' : State → Out} (ho : SameButLatches o o')
    (hk : ∀ t l, Hides t l → SameButLatches (k t) (k' (t.latch l))) : SameButLatches (onNext o k) (onNext o' k') := by
  cases o <;> cases o'
  case next.next t t' => obtain ⟨l, rfl, hl⟩ := ho; exact hk t l hl
  case fault.fault => exact ho
  case refused.refused => exact ho
  all_goals exact ho.elim

/-! ## The clock that presents a request -/

section Exec

variable {s : State} {l : Latches} (h : Hides s l)
include h

theorem Hides.respondPure (r : Response) : SameButLatches (respondPure r s) (respondPure r (s.latch l)) :=
  (h.withOutputs s.pins (some r) s.rspDrv s.trace).next

theorem Hides.setField (R : RegDesc) (v : ValPort) (k : FieldIdx) (x : BitVec 11) :
    SameButLatches (setField R v k x s) (setField R v k x (s.latch l)) :=
  sameButLatches_onOk _ fun _ => sameButLatches_onOk _ fun _ => sameButLatches_onOk _ fun _ => h.respondPure _

theorem Hides.whenReady {o o' : Out} (ho : SameButLatches o o') :
    SameButLatches (whenReady s o) (whenReady (s.latch l) o') :=
  sameButLatches_ite (fun _ => h.next) fun _ => ho

omit h in
/-- Acceptance loads what the operation reads; EXECUTE reads no register (R108, log entry 15). -/
theorem sameButLatches_acceptDriver (o : HostOp) (r r' : RegIdx) (c : CmdWord) (hr : o ≠ .execute → r' = r) :
    SameButLatches (.next (acceptDriver o r c s)) (.next (acceptDriver o r' c (s.latch l))) :=
  ⟨(acceptDriver o r' c (s.latch l)).latches, rfl, Loaded.hides rfl
    { op := rfl
      cmd := rfl
      reg := hr
      terr := by simp
      rply := by simp
      val := by simp
      betweenFrames := by simp }⟩

theorem Hides.acceptExecute (c : CmdWord) : SameButLatches (acceptExecute c s) (acceptExecute c (s.latch l)) :=
  h.whenReady (sameButLatches_ite (fun _ => sameButLatches_acceptDriver _ _ _ c (by simp)) fun _ => rfl)

theorem Hides.acceptRead (o : HostOp) (r : RegIdx) : SameButLatches (acceptRead o r s) (acceptRead o r (s.latch l)) :=
  h.whenReady (sameButLatches_onOk _ fun _ => sameButLatches_acceptDriver _ _ _ _ fun _ => rfl)

/-- A request does the same whatever the hidden latches hold. -/
theorem Hides.exec (i : Instr) : SameButLatches (exec i s) (exec i (s.latch l)) := by
  cases i with
  | rd a => exact h.acceptExecute _
  | wr a d => exact h.acceptExecute _
  | execute c => exact h.acceptExecute c
  | read r => exact h.acceptRead _ r
  | modify r => exact h.acceptRead _ r
  | modifyReread r => exact sameButLatches_ite (fun _ => h.acceptRead _ r) fun _ => h.next
  | write r v =>
    refine h.whenReady (sameButLatches_onOk _ fun R => sameButLatches_onOk _ fun v => ?_)
    split
    · exact sameButLatches_acceptDriver _ _ _ _ fun _ => rfl
    · exact (h.withOutputs _ _ _ _).next
  | address r => exact sameButLatches_onOk _ fun _ => h.respondPure _
  | decode r raw => exact sameButLatches_onOk _ fun _ => by split <;> exact h.respondPure _
  | encode r v => exact sameButLatches_onOk _ fun _ => sameButLatches_onOk _ fun _ => h.respondPure _
  | getField r v k =>
    refine sameButLatches_onOk _ fun _ => sameButLatches_onOk _ fun _ => ?_
    split
    · exact h.respondPure _
    · rfl
  | withField r v k x => exact sameButLatches_onOk _ fun _ => h.setField _ _ _ _
  | makeRead a => exact h.respondPure _
  | makeWrite a p => simp only [Machine.exec, execMakeWrite]; split <;> exact h.respondPure _
  | toWire c => exact sameButLatches_ite (fun _ => h.respondPure _) fun _ => rfl
  | fromWire raw => exact h.respondPure _
  | reservedE => exact h.next
  | reservedF => exact h.next
  | withCommOption v x => exact h.setField _ _ _ _
  | withPwmMode v x => exact h.setField _ _ _ _
  | withWwFlag v j b => exact h.setField _ _ _ _

end Exec

/-! ## The sequencer and the operation layer -/

/-- A frame starts with the command word it is given (R101). -/
theorem Loaded.startFrame {s : State} {l : Latches} (h : Loaded s l) (hopv : s.opv = true) (st : Stage) (c : CmdWord) :
    SameButLatches (.next (startFrame st c s)) (.next (startFrame st c (s.latch l))) :=
  ⟨{ l with cmd := toWire c }, rfl, Loaded.hides hopv
    { op := h.op
      cmd := rfl
      reg := h.reg
      terr := by simp
      rply := by simp
      val := by simp
      betweenFrames := by simp }⟩

/-- An operation ends with no frame open: all six latches are hidden again (R108). -/
theorem sameButLatches_endOp (r : Response) {s : State} (l : Latches) (hph : s.phase = .idle) :
    SameButLatches (.next (endOp r s)) (.next (endOp r (s.latch l))) :=
  Hides.next (t := endOp r s) (hides_atRest rfl (by simp [hph, Phase.framed]) l)

/-- The next frame of an operation in flight reads what is loaded (R112, R113). -/
theorem Loaded.nextFrame {s : State} {l : Latches} (h : Loaded s l) (hopv : s.opv = true) (hph : s.phase = .idle) :
    SameButLatches (nextFrame s) (nextFrame (s.latch l)) := by
  have hreg := h.reg (h.betweenFrames hph)
  unfold Machine.nextFrame
  simp only [State.latch_cfg, State.latch_reg, State.latch_op, State.latch_stage, State.latch_val, hreg, h.op]
  split
  · rfl
  · split
    case h_1 hst | h_2 hst =>
      rw [h.val hph hst]
      split
      · exact h.startFrame hopv _ _
      · exact sameButLatches_endOp _ l hph
    · exact h.startFrame hopv _ _
    · rfl

/-- The state in the clock in which the hold of a frame ends (R107). -/
def State.holdEnded (s : State) : State := ({ s with phase := .idle }).emit (.delay s.cfg.tCsHighMinNs)

@[simp] theorem State.holdEnded_phase (s : State) : s.holdEnded.phase = .idle := rfl
@[simp] theorem State.holdEnded_cfg (s : State) : s.holdEnded.cfg = s.cfg := rfl
@[simp] theorem State.holdEnded_op (s : State) : s.holdEnded.op = s.op := rfl
@[simp] theorem State.holdEnded_reg (s : State) : s.holdEnded.reg = s.reg := rfl
@[simp] theorem State.holdEnded_stage (s : State) : s.holdEnded.stage = s.stage := rfl
@[simp] theorem State.holdEnded_errf (s : State) : s.holdEnded.errf = s.errf := rfl
@[simp] theorem State.holdEnded_terr (s : State) : s.holdEnded.terr = s.terr := rfl
@[simp] theorem State.holdEnded_rply (s : State) : s.holdEnded.rply = s.rply := rfl

/-- A decode at the end of an operation reads the reply (R110). -/
theorem sameButLatches_endWithDecode (R : RegDesc) {s : State} {l : Latches} (hph : s.phase = .idle)
    (hrply : l.rply = s.rply) :
    SameButLatches (.next (endWithDecode R s)) (.next (endWithDecode R (s.latch l))) := by
  unfold endWithDecode
  rw [State.latch_rply, hrply]
  split <;> exact sameButLatches_endOp _ l hph

section FrameEnd

variable {s : State} {l : Latches} (h : Loaded s l) (hopv : s.opv = true) (hph : s.phase = .hold)
include h hopv hph

omit hph in
/-- Between two frames of a typed operation the register and, before the write frame, `S.VAL` stay loaded (R112). -/
theorem Loaded.anotherFrame (herr : s.errf = false) (hop : s.op ≠ .execute) (v v' : RegVal)
    (hval : s.stage = .frame1 → v' = v) :
    SameButLatches (.next { s.holdEnded with val := v }) (.next { s.holdEnded.latch l with val := v' }) :=
  ⟨{ l with val := v' }, rfl, Loaded.hides hopv
    { op := h.op
      cmd := h.cmd
      reg := h.reg
      terr := by simp [herr]
      rply := by simp
      val := fun _ => hval
      betweenFrames := fun _ => hop }⟩

/-- The callback is given the decoded reply and answers on the pins (R112, R64). -/
theorem Loaded.applyModify (mr : ValPort) (R : RegDesc) (herr : s.errf = false) (hop : s.op ≠ .execute) :
    SameButLatches (applyModify mr R s.holdEnded) (applyModify mr R (s.holdEnded.latch l)) := by
  have hdec : decodeReg R (fromWire (s.holdEnded.latch l).rply) = decodeReg R (fromWire s.holdEnded.rply) := by
    rw [State.latch_rply, h.rply herr (.inr hph), State.holdEnded_rply]
  unfold Machine.applyModify
  rw [hdec]
  split
  · exact sameButLatches_onOk _ fun v => h.anotherFrame hopv herr hop v v fun _ => rfl
  · exact sameButLatches_endOp _ l rfl

/-- The end of a frame of a typed operation reads the reply and what the pins hold (R110 to R113). -/
theorem Loaded.typedFrameDone (mr : ValPort) (R : RegDesc) (herr : s.errf = false) (hop : s.op ≠ .execute) :
    SameButLatches (typedFrameDone mr R s.holdEnded) (typedFrameDone mr R (s.holdEnded.latch l)) := by
  have hrply := h.rply herr (.inr hph)
  have decoded := sameButLatches_endWithDecode R (s := s.holdEnded) rfl hrply
  unfold Machine.typedFrameDone
  simp only [State.latch_op, State.latch_stage, State.latch_rply, State.holdEnded_op, State.holdEnded_stage,
    State.holdEnded_rply, h.op, hrply]
  split
  case h_3 | h_5 => exact h.applyModify hopv hph mr R herr hop
  case h_2 => exact sameButLatches_endOp _ l rfl
  case h_6 hst => exact h.anotherFrame hopv herr hop _ _ (by simp [hst])
  case h_8 => rfl
  all_goals exact decoded

/-- The end of a frame reads the latched error or the reply (R107). -/
theorem Loaded.frameDone (mr : ValPort) :
    SameButLatches (frameDone mr s.holdEnded) (frameDone mr (s.holdEnded.latch l)) := by
  unfold Machine.frameDone
  simp only [State.latch_op, State.latch_errf, State.latch_cfg, State.latch_reg, State.latch_rply, State.latch_terr,
    State.holdEnded_op, State.holdEnded_errf, State.holdEnded_cfg, State.holdEnded_reg, State.holdEnded_rply,
    State.holdEnded_terr, h.op]
  split
  case h_1 =>
    refine sameButLatches_ite (fun herr => ?_) fun herr => ?_
    · rw [h.terr herr]; exact sameButLatches_endOp _ l rfl
    · rw [h.rply (by simpa using herr) (.inr hph)]; exact sameButLatches_endOp _ l rfl
  case h_2 hop | h_3 hop | h_4 hop | h_5 hop =>
    have typed : s.op ≠ .execute := by simp [hop]
    rw [h.reg typed]
    refine sameButLatches_ite (fun herr => ?_) fun herr => ?_
    · rw [h.terr herr]; exact sameButLatches_endOp _ l rfl
    · split
      · rfl
      · exact h.typedFrameDone hopv hph mr _ (by simpa using herr) typed
  all_goals rfl

end FrameEnd

/-! ## One clock -/

/-- Inside a frame, away from its release, neither the reply nor `S.VAL` is loaded (R102 to R104). -/
theorem Loaded.moveInFrame {s : State} {l : Latches} (h : Loaded s l) (hopv : s.opv = true) (ph : Phase) (n : Nat)
    (tr : List Event) (hph : ph = .setup ∨ ph = .send ∨ ph = .recv) :
    SameButLatches (.next { s with phase := ph, cnt := n, trace := tr })
      (.next { s.latch l with phase := ph, cnt := n, trace := tr }) :=
  ⟨l, rfl, Loaded.hides hopv
    { op := h.op
      cmd := h.cmd
      reg := h.reg
      terr := h.terr
      rply := fun _ hp => by rcases hph with rfl | rfl | rfl <;> simp at hp
      val := by rintro rfl; simp at hph
      betweenFrames := by rintro rfl; simp at hph }⟩

/-- An error latched in a frame is loaded (R103, R104, R126). -/
theorem Loaded.latchTransportError {s : State} {l : Latches} (h : Loaded s l) (hopv : s.opv = true) (e : Nat)
    (ev : Event) :
    SameButLatches (.next ((latchTransportError e s).emit ev)) (.next ((latchTransportError e (s.latch l)).emit ev)) :=
  ⟨{ l with terr := e }, rfl, Loaded.hides hopv
    { op := h.op
      cmd := h.cmd
      reg := h.reg
      terr := fun _ => rfl
      rply := by simp
      val := by simp
      betweenFrames := by simp }⟩

theorem Loaded.tickSend {s : State} {l : Latches} (h : Loaded s l) (hopv : s.opv = true) (p : Pins) :
    SameButLatches (tickSend p s) (tickSend p (s.latch l)) := by
  unfold Machine.tickSend
  split
  · exact (h.hides hopv).next
  · split
    · refine sameButLatches_onOk _ fun e => ?_
      rw [State.latch_cmd, h.cmd]
      exact h.latchTransportError hopv e _
    · change SameButLatches _ (.next (({ s.latch l with phase := .recv }).emit (.send l.cmd .ok)))
      rw [h.cmd]
      exact h.moveInFrame hopv .recv s.cnt (s.trace ++ [.send s.cmd .ok]) (by simp)

theorem Loaded.tickRecv {s : State} {l : Latches} (h : Loaded s l) (hopv : s.opv = true) (p : Pins) :
    SameButLatches (tickRecv p s) (tickRecv p (s.latch l)) := by
  unfold Machine.tickRecv
  split
  · exact (h.hides hopv).next
  · split
    · exact sameButLatches_onOk _ fun e => h.latchTransportError hopv e _
    · exact ⟨{ l with rply := p.rxWord }, rfl, Loaded.hides hopv
        { op := h.op
          cmd := h.cmd
          reg := h.reg
          terr := h.terr
          rply := fun _ _ => rfl
          val := by simp
          betweenFrames := by simp }⟩

theorem Loaded.tickSetup {s : State} {l : Latches} (h : Loaded s l) (hopv : s.opv = true) (hph : s.phase = .setup) :
    SameButLatches (.next (tickSetup s)) (.next (tickSetup (s.latch l))) := by
  by_cases hcnt : s.cnt = 0
  · rw [Machine.tickSetup, Machine.tickSetup, if_pos hcnt, if_pos (show (s.latch l).cnt = 0 from hcnt)]
    exact h.moveInFrame hopv .send s.cnt (s.trace ++ [.delay s.cfg.tCsSetupMinNs]) (by simp)
  · rw [Machine.tickSetup, Machine.tickSetup, if_neg hcnt, if_neg (show (s.latch l).cnt ≠ 0 from hcnt)]
    exact h.moveInFrame hopv s.phase (s.cnt - 1) s.trace (.inl hph)

theorem Loaded.releaseFrame {s : State} {l : Latches} (h : Loaded s l) (hopv : s.opv = true) (hph : s.phase = .release) :
    SameButLatches (.next (releaseFrame s)) (.next (releaseFrame (s.latch l))) :=
  Hides.next (t := Machine.releaseFrame s) (Loaded.hides hopv
    { op := h.op
      cmd := h.cmd
      reg := h.reg
      terr := h.terr
      rply := fun he _ => h.rply he (.inl hph)
      val := by simp
      betweenFrames := by simp })

theorem Hides.tickHold {s : State} {l : Latches} (h : Hides s l) (hph : s.phase = .hold) (p : Pins) :
    SameButLatches (tickHold p s) (tickHold p (s.latch l)) := by
  refine sameButLatches_ite (fun _ => sameButLatches_ite (fun hopv => ?_) fun hopv => ?_) fun _ => ?_
  · exact (h.inFlight hopv).frameDone hopv hph p.modRes
  · exact Hides.next (t := { s with phase := .idle }) (hides_atRest (by simpa using hopv) rfl l)
  · exact Hides.next (t := { s with cnt := s.cnt - 1 })
      ⟨h.atRest, fun hopv =>
        have hl := h.inFlight hopv
        ⟨hl.op, hl.cmd, hl.reg, hl.terr, hl.rply, hl.val, hl.betweenFrames⟩⟩

/-- A transition of the sequencer does the same whatever the hidden latches hold. -/
theorem Hides.tick {s : State} {l : Latches} (h : Hides s l) (p : Pins) :
    SameButLatches (tick p s) (tick p (s.latch l)) := by
  have framed (hf : s.phase.framed = true) : s.opv = true ∧ Loaded s l :=
    ⟨h.opv_of_framed hf, h.inFlight (h.opv_of_framed hf)⟩
  cases hph : s.phase <;> simp only [Machine.tick, State.latch_phase, hph]
  case idle => exact sameButLatches_ite (fun hopv => (h.inFlight hopv).nextFrame hopv hph) fun _ => h.next
  case hold => exact h.tickHold hph p
  all_goals obtain ⟨hopv, hl⟩ := framed (by rw [hph]; rfl)
  case setup => exact hl.tickSetup hopv hph
  case send => exact hl.tickSend hopv p
  case recv => exact hl.tickRecv hopv p
  case release => exact hl.releaseFrame hopv hph

theorem Hides.clockRequest {s : State} {l : Latches} (h : Hides s l) (p : Pins) (q : Request) :
    SameButLatches (clockRequest p q s) (clockRequest p q (s.latch l)) := by
  unfold Machine.clockRequest
  rw [State.latch_busy]
  split
  · refine (h.exec _).onNext fun t l' ht => ?_
    split
    · exact ht.tick p
    · exact ht.next
  · split
    · exact h.tick p
    · rfl

/-- A clock does the same whatever the hidden latches hold; a reset loads all six (R25). -/
theorem Hides.step {s : State} {l : Latches} (h : Hides s l) : SameButLatches (step s) (step (s.latch l)) := by
  have clear : Hides s.dropPins.clearStrobes l := h.withOutputs _ _ _ _
  have reset : SameButLatches (.next (resetState s.dropPins)) (.next (resetState (s.latch l).dropPins)) :=
    ⟨(resetState s.dropPins).latches, rfl, hides_atRest rfl rfl _⟩
  unfold Machine.step clock
  rw [State.latch_nextPins]
  refine sameButLatches_ite (fun _ => sameButLatches_ite (fun _ => reset) fun _ => ?_) fun _ => rfl
  split
  · exact clear.tick _
  · exact clear.clockRequest _ _

/-- A run of one clock more is a clock and then the run, unless the clock stops. -/
theorem runFor_succ (k : Nat) (s : State) : runFor (k + 1) s = onNext (step s) (runFor k) := by
  cases hs : step s with
  | next t => exact run_succ k s t hs
  | fault f =>
    have hcore : core.step s = .fault f := hs
    simp only [runFor, Host.Core.run, hcore]
    rfl
  | refused r =>
    have hcore : core.step s = .refused r := hs
    simp only [runFor, Host.Core.run, hcore]
    rfl

/-- Any number of clocks. -/
theorem Hides.runFor {s : State} {l : Latches} (h : Hides s l) (k : Nat) :
    SameButLatches (runFor k s) (runFor k (s.latch l)) := by
  induction k generalizing s l with
  | zero => exact h.next
  | succ k ih =>
    rw [runFor_succ, runFor_succ]
    exact h.step.onNext fun t l' ht => ih ht

/-! ## What the outside sees -/

/-- The word on the port while a send is requested (R130). -/
theorem Hides.txWord {s : State} {l : Latches} (h : Hides s l) (ht : s.txReq = true) :
    s.txWord = (s.latch l).txWord := by
  have hopv := h.opv_of_framed (by rw [s.txReq_iff.1 ht]; rfl)
  exact (h.inFlight hopv).cmd.symm

/-- The value handed to the callback is decoded from the reply of a typed operation in flight (R64). -/
theorem Hides.modArg {s : State} {l : Latches} (h : Hides s l) : s.modArg = (s.latch l).modArg := by
  by_cases hopv : s.opv = true
  · have hl := h.inFlight hopv
    simp only [State.modArg, State.latch_phase, State.latch_cnt, State.latch_opv, State.latch_errf, State.latch_stage,
      State.latch_op, State.latch_cfg, State.latch_reg, State.latch_rply, hl.op]
    split <;> rename_i hdue
    · obtain ⟨hph, -, -, herr, -, hop⟩ := hdue
      rw [hl.reg (by rintro he; simp [he] at hop), hl.rply herr (.inr hph)]
    · rfl
  · simp [State.modArg, hopv]

/-- Settles O52: at rest all six latches are hidden, every clock keeps what is hidden so, and no output shows it. -/
theorem unspecifiedLatchesUnobservable : Obligations.UnspecifiedLatchesUnobservable := by
  intro s o r c w e v k hopv hf
  have hrun : SameButLatches (runFor k s)
      (runFor k { s with op := o, reg := r, cmd := c, rply := w, terr := e, val := v }) :=
    (hides_atRest hopv hf ⟨o, r, c, w, e, v⟩).runFor k
  revert hrun
  generalize runFor k s = x, runFor k { s with op := o, reg := r, cmd := c, rply := w, terr := e, val := v } = y
  intro hrun
  cases x <;> cases y
  case next.next t t' =>
    obtain ⟨l, rfl, hl⟩ := hrun
    exact ⟨rfl, rfl, rfl, rfl, rfl, rfl, rfl, rfl, hl.txWord, hl.modArg⟩
  case fault.fault => exact hrun
  case refused.refused => exact hrun
  all_goals exact hrun.elim

end Sys2Proof.Machine
end

section
/-! PROOFS. The encoding: the decoder against the encoder (R50, R52, R60, R64) and the port that carries a register
value. -/

namespace Sys2Proof.Machine

theorem decodeTableWord_eq_some {nbits w : Nat} {i : Instr} :
    decodeTableWord nbits w = some i ↔ decodeRequest (requestOfTableWord nbits w) = .ok i := by
  unfold decodeTableWord
  cases decodeRequest (requestOfTableWord nbits w) <;> simp

/-- A request is read back from its own bits (log entry 10). -/
theorem requestOfTableWord_tableWord (q : Request) : requestOfTableWord q.tableWord.1 q.tableWord.2 = q := by
  cases q with
  | wire w => simp [Request.tableWord, requestOfTableWord]
  | host p => simp [Request.tableWord, requestOfTableWord, hostRequestBits, image_roundtrip]

/-- A host operation on a command word, given the encoder's word, gets the command word back. -/
theorem decodeCmd_encodeCmd_map (g : CmdWord → Instr) {c : CmdWord} (h : c.constructible = true) :
    (decodeCmd (encodeCmd c)).map g = .ok (g c) := by
  rw [decodeCmd_encodeCmd c h]; rfl

theorem decodeWire_encodeCmd_read (a : Addr) : decodeWire (encodeCmd ⟨.read, a, 0#11⟩) = .ok (.rd a) := by
  simp only [decodeWire, decodeCmd_encodeCmd ⟨.read, a, 0#11⟩ rfl]

theorem decodeWire_encodeCmd_write (a : Addr) (d : Payload) :
    decodeWire (encodeCmd ⟨.write, a, d⟩) = .ok (.wr a d) := by
  simp only [decodeWire, decodeCmd_encodeCmd ⟨.write, a, d⟩ rfl]

/-- The decoder on the encoder's request. Only the wire words, TO_WIRE and EXECUTE carry an operand that is recoded, a
command word; the code of every other row selects that row, which reads the ports the encoder filled. -/
theorem decodeRequest_encode (i : Instr) (h : i.wf = true) : decodeRequest (encode i) = .ok i.coreForm := by
  cases i with
  | rd a => exact decodeWire_encodeCmd_read a
  | wr a d => exact decodeWire_encodeCmd_write a d
  | toWire c => exact decodeCmd_encodeCmd_map .toWire h
  | execute c => exact decodeCmd_encodeCmd_map .execute h
  | _ => rfl

/-- Settles O2: no bit of the request is lost in its number, and the decoder undoes the encoder on requests. -/
theorem decodeOfEncode : Obligations.DecodeOfEncode := by
  intro i hwf
  rw [decodeTableWord_eq_some, requestOfTableWord_tableWord]
  exact decodeRequest_encode i hwf

/-- Settles O1: the decoder evaluated on each word. -/
theorem tableWordsDecode : Obligations.TableWordsDecode := by
  unfold Obligations.TableWordsDecode
  decide

/-! ## The wire words -/

theorem parseCmd_kind_eq_write_iff (w : Word) : (parseCmd w).kind = .write ↔ w &&& 0x8000#16 = 0#16 := by
  rw [parse_kind, and_8000]
  split <;> simp_all

/-- The mask 0x87FF of R52 leaves out the address alone. -/
theorem toWire_makeRead_mask : ∀ a : Addr, toWire (makeRead a) &&& 0x87FF#16 = 0x8000#16 := by decide

/-- The match and mask of an RD (R52) are those of a word MAKE_READ makes. -/
theorem mask_eq_read_iff (w : Word) :
    w &&& 0x87FF#16 = 0x8000#16 ↔ (parseCmd w).kind = .read ∧ (parseCmd w).payload = 0#11 := by
  constructor
  · intro h
    constructor
    · have hbit : w &&& 0x8000#16 ≠ 0#16 := by
        rw [show (0x8000#16 : Word) = 0x87FF#16 &&& 0x8000#16 by decide, ← BitVec.and_assoc, h]; decide
      cases hk : (parseCmd w).kind with
      | read => rfl
      | write => exact absurd ((parseCmd_kind_eq_write_iff w).1 hk) hbit
    · calc w.extractLsb' 0 11 = (w &&& 0x87FF#16).extractLsb' 0 11 := by
            rw [BitVec.extractLsb'_and, show (0x87FF#16).extractLsb' 0 11 = BitVec.allOnes 11 by decide,
              BitVec.and_allOnes]
        _ = 0#11 := by rw [h]; decide
  · rintro ⟨hk, hp⟩
    have hw : toWire (makeRead (parseCmd w).address) = w := by
      rw [toWire_eq, makeRead, ← hk, ← hp, encode_parse]
    rw [← hw]
    exact toWire_makeRead_mask _

theorem decodeWire_of_write {w : Word} (hk : (parseCmd w).kind = .write) :
    decodeWire w = .ok (.wr (parseCmd w).address (parseCmd w).payload) := by
  simp [decodeWire, decodeCmd, CmdWord.constructible, hk]

theorem decodeWire_of_read {w : Word} (hk : (parseCmd w).kind = .read) :
    decodeWire w = if (parseCmd w).payload = 0#11 then .ok (.rd (parseCmd w).address) else .error .readWithPayload := by
  by_cases hp : (parseCmd w).payload = 0#11 <;> simp [decodeWire, decodeCmd, CmdWord.constructible, hk, hp]

/-- Settles O4: bit 15 is the kind, and the mask of an RD adds that the payload is zero. -/
theorem wireWordForms : Obligations.WireWordForms := by
  intro w
  refine ⟨fun h => ?_, fun h => ?_, fun h h' => ?_⟩
  · exact decodeWire_of_write ((parseCmd_kind_eq_write_iff w).2 h)
  · obtain ⟨hk, hp⟩ := (mask_eq_read_iff w).1 h
    rw [decodeWire_of_read hk, if_pos hp]; rfl
  · cases hk : (parseCmd w).kind with
    | write => exact absurd ((parseCmd_kind_eq_write_iff w).1 hk) h
    | read => rw [decodeWire_of_read hk, if_neg fun hp => h' ((mask_eq_read_iff w).2 ⟨hk, hp⟩)]

/-! ## The port of a register value -/

/-- The bits of a word a field takes. -/
def fieldSpan (f : FieldDesc) : List Nat := List.range' f.offset f.width

theorem mem_fieldSpan {f : FieldDesc} {i : Nat} : i ∈ fieldSpan f ↔ covers f i := by
  simp [fieldSpan, covers, List.mem_range'_1]

theorem length_flatMap_fieldSpan (fs : List FieldDesc) : (fs.flatMap fieldSpan).length = codesWidth fs := by
  induction fs with
  | nil => rfl
  | cons f fs ih => simp [codesWidth, ih, fieldSpan]

/-- Fields that share no bit and lie in bits 10:0 have at most 11 bits together (R10, R64). -/
theorem codesWidth_le {R : RegDesc} (h : R.wf = true) : codesWidth R.fields ≤ 11 := by
  obtain ⟨hfields, hdisj⟩ := rwf R h
  have hnodup : (R.fields.flatMap fieldSpan).Nodup := by
    rw [List.nodup_flatMap]
    refine ⟨fun f _ => List.nodup_range', hdisj.imp fun {f g} hfg i hf hg => ?_⟩
    exact disjoint_covers f g hfg i (mem_fieldSpan.1 hf) (mem_fieldSpan.1 hg)
  have hsub : R.fields.flatMap fieldSpan ⊆ List.range 11 := by
    intro i hi
    obtain ⟨f, hf, hif⟩ := List.mem_flatMap.1 hi
    obtain ⟨-, hlt⟩ := mem_fieldSpan.1 hif
    obtain ⟨-, hend⟩ := fwf_bounds f (hfields f hf)
    exact List.mem_range.2 (by omega)
  calc codesWidth R.fields = (R.fields.flatMap fieldSpan).length := (length_flatMap_fieldSpan _).symm
    _ ≤ (List.range 11).length := (hnodup.subperm hsub).length_le
    _ = 11 := List.length_range

/-- A code below `2^w` and what is packed `w` bits higher share no bit, so `|` may be read as `+` (as in R92). -/
theorem toNat_or_shiftLeft {c : Word} {b : BitVec 11} {w n : Nat} (hc : c.toNat < 2 ^ w) (hb : b.toNat < 2 ^ n)
    (hwn : w + n ≤ 11) : (c.setWidth 11 ||| b <<< w).toNat = c.toNat + 2 ^ w * b.toNat := by
  have hfit : 2 ^ w * b.toNat + c.toNat < 2 ^ 11 :=
    calc 2 ^ w * b.toNat + c.toNat < 2 ^ w * (b.toNat + 1) := by rw [Nat.mul_add]; omega
      _ ≤ 2 ^ w * 2 ^ n := Nat.mul_le_mul_left _ hb
      _ ≤ 2 ^ 11 := by rw [← pow_add]; exact Nat.pow_le_pow_right (by omega) hwn
  rw [BitVec.toNat_or, BitVec.toNat_setWidth, BitVec.toNat_shiftLeft, Nat.shiftLeft_eq, Nat.mul_comm b.toNat,
    Nat.mod_eq_of_lt (by omega), Nat.mod_eq_of_lt (by omega), Nat.or_comm, ← Nat.two_pow_add_eq_or_of_lt hc,
    Nat.add_comm]

/-- The codes of a checked register fit the bits they are packed in, and unpacking finds each again. -/
theorem unpackCodes_packCodes {fs : List FieldDesc} {cs : List Word} (hwf : ∀ f ∈ fs, f.wf = true)
    (hv : validCodes fs cs = true) (hwidth : codesWidth fs ≤ 11) :
    (packCodes fs cs).toNat < 2 ^ codesWidth fs ∧ unpackCodes fs (packCodes fs cs) = cs := by
  induction fs generalizing cs with
  | nil => cases cs with
    | nil => exact ⟨by decide, rfl⟩
    | cons c cs => cases hv
  | cons f fs ih => cases cs with
    | nil => cases hv
    | cons c cs =>
      simp only [validCodes, Bool.and_eq_true] at hv
      obtain ⟨hc, hcs⟩ := hv
      simp only [codesWidth] at hwidth ⊢
      obtain ⟨hfit, hback⟩ := ih (fun g hg => hwf g (List.mem_cons_of_mem _ hg)) hcs (by omega)
      have hlt := allows_lt f (hwf f List.mem_cons_self) c hc
      have hsum := toNat_or_shiftLeft hlt hfit hwidth
      have hup : (packCodes (f :: fs) (c :: cs)) >>> f.width = packCodes fs cs := by
        apply BitVec.eq_of_toNat_eq
        rw [packCodes, BitVec.toNat_ushiftRight, hsum, Nat.shiftRight_eq_div_pow,
          Nat.add_mul_div_left _ _ (by positivity), Nat.div_eq_of_lt hlt, Nat.zero_add]
      have hlow : BitVec.ofNat 16 ((packCodes (f :: fs) (c :: cs)).toNat % 2 ^ f.width) = c := by
        rw [packCodes, hsum, Nat.add_mul_mod_self_left, Nat.mod_eq_of_lt hlt, BitVec.ofNat_toNat, BitVec.setWidth_eq]
      refine ⟨?_, by rw [unpackCodes, hlow, hup, hback]⟩
      calc (packCodes (f :: fs) (c :: cs)).toNat = c.toNat + 2 ^ f.width * (packCodes fs cs).toNat := hsum
        _ < 2 ^ f.width * ((packCodes fs cs).toNat + 1) := by rw [Nat.mul_add]; omega
        _ ≤ 2 ^ f.width * 2 ^ codesWidth fs := Nat.mul_le_mul_left _ hfit
        _ = 2 ^ (f.width + codesWidth fs) := (pow_add ..).symm

/-- Settles O23: the packed codes pass both checks of the operand and unpack to themselves. -/
theorem valuePortRoundTrip : Obligations.ValuePortRoundTrip := by
  intro R v hwf hv
  obtain ⟨hfit, hback⟩ := unpackCodes_packCodes (rwf R hwf).1 hv (codesWidth_le hwf)
  simp only [RegVal.validFor] at hv
  simp [valOperand, RegVal.toPort, hfit, hback, hv]

end Sys2Proof.Machine
end

section
/-! PROOFS. The step against the decoder: what a pure operation leaves alone (R60), and that a clock runs the
instruction its request decodes to (R64, R108). -/

namespace Sys2Proof.Machine

/-! ## Pure operations -/

theorem onOk_shape {α : Type} {x : Except Refusal α} {k : α → Out} {s t : State}
    (hk : ∀ a, k a = .next t → PureShape s t) (h : onOk x k = .next t) : PureShape s t := by
  obtain ⟨a, -, ha⟩ := onOk_next h
  exact hk a ha

/-- Settles O24: every operation but the driver's ends in `respondPure`, in a refusal, or in the state itself. -/
theorem pureTouchesNothing : Obligations.PureTouchesNothing := by
  intro i s t hi h
  show PureShape s t
  cases i with
  | address r => exact onOk_shape (fun _ => respondPure_shape) h
  | decode r raw =>
    refine onOk_shape (fun R hR => ?_) h
    split at hR <;> exact respondPure_shape hR
  | encode r v => exact onOk_shape (fun _ => onOk_shape fun _ => respondPure_shape) h
  | getField r v k =>
    refine onOk_shape (fun _ => onOk_shape fun v hv => ?_) h
    split at hv
    · exact respondPure_shape hv
    · cases hv
  | withField r v k x => exact onOk_shape (fun _ => setField_shape) h
  | withCommOption | withPwmMode | withWwFlag => exact setField_shape h
  | makeRead | fromWire => exact respondPure_shape h
  | makeWrite a p =>
    simp only [exec, execMakeWrite] at h
    split at h <;> exact respondPure_shape h
  | toWire c =>
    simp only [exec, execToWire] at h
    split at h
    · exact respondPure_shape h
    · cases h
  | reservedE | reservedF => cases h; rfl
  | rd | wr | execute | read | write | modify | modifyReread => cases hi

/-- Settles O29: the two reserved codes by their meanings, the optional operation by the parameter it asks. -/
theorem reservedCodesDoNothing : Obligations.ReservedCodesDoNothing :=
  ⟨fun _ => rfl, fun _ => rfl, fun r s h => by simp [exec, execModifyReread, h]⟩

/-! ## One clock -/

theorem step_of_request {s : State} {q : Request} {i : Instr} (hwf : s.cfg.wf = true) (hrst : s.nextPins.rst = false)
    (hreq : s.nextPins.req = some q) (hdec : decodeRequest q = .ok i) :
    step s = onNext (exec i s.dropPins.clearStrobes) fun t => if s.busy then tick s.nextPins t else .next t := by
  simp only [step, clock, State.dropPins_cfg, hwf, hrst, hreq, clockRequest, hdec, Bool.false_eq_true,
    if_true, if_false]
  rfl

theorem step_of_noRequest {s : State} (hwf : s.cfg.wf = true) (hrst : s.nextPins.rst = false)
    (hreq : s.nextPins.req = none) : step s = tick s.nextPins s.dropPins.clearStrobes := by
  simp [step, clock, hwf, hrst, hreq]

theorem State.nextPins_cons {s : State} {p : Pins} {ps : List Pins} (h : s.pins = p :: ps) : s.nextPins = p := by
  simp [State.nextPins, h]

theorem State.nextPins_nil {s : State} (h : s.pins = []) : s.nextPins = Pins.quiet := by
  simp [State.nextPins, h]

theorem State.dropPins_clearStrobes (s : State) :
    s.dropPins.clearStrobes = { s with pins := s.pins.tail, rspPure := none, rspDrv := none } := rfl

/-- Settles O30: a clock with and without a request, the pins being the list's first or, with none left, quiet. -/
theorem stepRunsDecoded : Obligations.StepRunsDecoded := by
  refine ⟨fun s p ps q i hwf hp hrst hreq hdec => ?_, fun s p ps hwf hp hrst hreq => ?_, fun s hwf hp => ?_⟩
  · have hpins := State.nextPins_cons hp
    rw [step_of_request hwf (by rw [hpins, hrst]) (by rw [hpins, hreq]) hdec, hpins,
      State.dropPins_clearStrobes, hp, List.tail_cons]
  · have hpins := State.nextPins_cons hp
    rw [step_of_noRequest hwf (by rw [hpins, hrst]) (by rw [hpins, hreq]), hpins,
      State.dropPins_clearStrobes, hp, List.tail_cons]
  · have hpins := State.nextPins_nil hp
    rw [step_of_noRequest hwf (by rw [hpins]; rfl) (by rw [hpins]; rfl), hpins,
      State.dropPins_clearStrobes, hp, List.tail_nil]

/-! ## The placed instruction -/

/-- The request alone says whether its instruction runs the sequencer (R60). -/
theorem asksDriver_of_decode {q : Request} {i : Instr} (h : decodeRequest q = .ok i) :
    Request.asksDriver q = i.isDriver := by
  cases q with
  | wire w => rcases decodeWire_ok h with ⟨a, rfl⟩ | ⟨a, d, rfl⟩ <;> rfl
  | host p =>
    simp only [decodeRequest, decodeHost] at h
    split at h
    case h_8 hop | h_10 hop =>
      obtain ⟨c, -, rfl⟩ := decodeCmd_map_ok h
      simp only [Request.asksDriver, hop]; rfl
    all_goals
      rename_i hop
      cases h
      simp only [Request.asksDriver, hop]; rfl

theorem asksReread_eq_false {q : Request} (h : Request.asksDriver q = false) : Request.asksReread q = false := by
  cases q with
  | wire w => rfl
  | host p =>
    simp only [Request.asksDriver, Request.asksReread] at h ⊢
    split at h <;> simp_all

theorem presentRequest_eq (q : Request) (s : State) :
    presentRequest q s = { s with pins := { s.nextPins with rst := false, req := some q } :: s.pins.tail } := by
  unfold presentRequest State.nextPins
  split <;> simp_all [Pins.quiet]

/-- The state a request is placed on, before it stands on the pins. -/
def readyFor (q : Request) (s : State) : State :=
  let u := if Request.asksDriver q then makeReady s else s
  if Request.asksReread q then { u with cfg := { u.cfg with hasModifyReread := true } } else u

theorem placeRequest_eq (q : Request) (s : State) : placeRequest q s = presentRequest q (readyFor q s) := rfl

@[simp] theorem readyFor_pins (q : Request) (s : State) : (readyFor q s).pins = s.pins := by
  unfold readyFor
  split <;> split <;> rfl

/-- The checks of R10 do not ask whether the optional operation is built. -/
@[simp] theorem readyFor_cfg_wf (q : Request) (s : State) : (readyFor q s).cfg.wf = s.cfg.wf := by
  unfold readyFor
  split <;> split <;> rfl

theorem readyFor_of_driver {q : Request} {s : State} (h : Request.asksDriver q = true) :
    (readyFor q s).busy = false := by
  simp only [readyFor, h, if_true]
  split <;> rfl

theorem readyFor_of_pure {q : Request} {s : State} (h : Request.asksDriver q = false) : readyFor q s = s := by
  simp [readyFor, h, asksReread_eq_false h]

/-- Settles O31: the placed request is the one the next clock finds on its pins; it is placed on a ready block when its
instruction is the driver's, and on the state itself when not. -/
theorem fetchWordIsRun : Obligations.FetchWordIsRun := by
  intro s nbits w i hwf hdec
  rw [decodeTableWord_eq_some] at hdec
  have hdriver := asksDriver_of_decode hdec
  rw [State.withFetchWord, placeRequest_eq, presentRequest_eq]
  generalize requestOfTableWord nbits w = q at hdec hdriver ⊢
  refine ⟨?_, fun hi => ?_, fun hi => ?_⟩
  · rw [step_of_request (by simpa using hwf) rfl rfl hdec, State.dropPins_clearStrobes, List.tail_cons, readyFor_pins]
  · exact readyFor_of_driver (hdriver.trans hi)
  · rw [readyFor_of_pure (hdriver.trans hi)]

end Sys2Proof.Machine
end

section
/-! PROOFS. The codec (R70 to R82): what each meaning answers once its operands are accepted, which patterns of a word
are undefined, and encoding against decoding and setting. -/

namespace Sys2Proof.Machine

/-! ## Encoding against decoding and setting -/

theorem validFor_length {R : RegDesc} {v : RegVal} (h : v.validFor R = true) : R.fields.length = v.codes.length :=
  ((validCodes_iff _ _).1 h).1

/-- Settles O19: a bit in a field comes back through its code, every other bit through the snapshot. -/
theorem codecRoundTrip : Obligations.CodecRoundTrip := by
  intro R raw v hwf hdec
  obtain ⟨hfields, hdisj⟩ := rwf R hwf
  have hv := decode_valid R raw v hdec
  obtain ⟨-, rfl⟩ := decodeReg_ok_inv R raw v hdec
  apply word_ext
  intro i
  by_cases hout : ∀ f ∈ R.fields, ¬ covers f i
  · exact encode_out R hwf _ hv i hout
  · push Not at hout
    obtain ⟨f, hf, hcov⟩ := hout
    obtain ⟨k, hk⟩ := List.mem_iff_getElem?.1 hf
    have hbounds := fwf_bounds f (hfields f hf)
    rw [encodeReg, encodeFields_in _ _ _ k f (extractField raw f.offset f.width) i hfields hdisj hv hk (by simp [hk]) hcov,
      extract_bit _ _ _ _ (by omega)]
    obtain ⟨hlow, hhigh⟩ := hcov
    simp [show i - f.offset < f.width by omega, Nat.add_sub_cancel' hlow]

/-- Settles O20: a setter is one insert into the encoded word, and the encoded word is the one that was decoded. -/
theorem fieldIsolation : Obligations.FieldIsolation := by
  intro R raw v k f x hwf hdec hf hx
  rw [set_bit R hwf v (decode_valid R raw v hdec) k f x hf hx, codecRoundTrip R raw v hwf hdec]

/-- The fields of an encoded value, read in descriptor order, are its codes. -/
theorem map_extract_encode {R : RegDesc} {v : RegVal} (hwf : R.wf = true) (hv : v.validFor R = true) :
    R.fields.map (fun f => extractField (encodeReg R v) f.offset f.width) = v.codes := by
  apply List.ext_getElem (by simpa using validFor_length hv)
  intro k hk hk'
  rw [List.getElem_map]
  exact extract_encode R hwf v hv k _ _ (List.getElem?_eq_getElem _) (List.getElem?_eq_getElem hk')

/-- Settles O21: each field of the encoded word reads as its code, which is legal. -/
theorem normalForm : Obligations.NormalForm := by
  intro R v hwf hv
  rw [decodeReg_ok, map_extract_encode hwf hv]
  intro f hf
  obtain ⟨k, hk⟩ := List.mem_iff_getElem?.1 hf
  have hlt : k < v.codes.length := validFor_length hv ▸ (List.getElem?_eq_some_iff.1 hk).1
  have hcode := List.getElem?_eq_getElem hlt
  rw [extract_encode R hwf v hv k f _ hk hcode]
  exact ((validCodes_iff _ _).1 hv).2 k f _ hk hcode

/-- Settles O22: the setters are writes of one place in the list of codes. -/
theorem setterAlgebra : Obligations.SetterAlgebra := by
  intro v j k x y
  refine ⟨fun hjk => ?_, ?_, fun hk => ?_, fun hjk => ?_⟩
  · simp [RegVal.setCode, List.set_comm _ _ hjk]
  · simp [RegVal.setCode]
  · simp [RegVal.setCode, hk]
  · simp [RegVal.setCode, List.getElem?_set_ne hjk.symm]

/-! ## Operands -/

@[simp] theorem onOk_ok {α : Type} (a : α) (k : α → Out) : onOk (.ok a) k = k a := rfl

@[simp] theorem onOk_error {α : Type} (e : Refusal) (k : α → Out) : onOk (.error e) k = .refused e := rfl

theorem regOperand_of_some {p : Params} {r : RegIdx} {R : RegDesc} (h : p.reg? r = some R) :
    regOperand p r = .ok R := by
  simp [regOperand, h]

theorem regOperand_of_none {p : Params} {r : RegIdx} (h : p.reg? r = none) :
    regOperand p r = .error .noSuchRegister := by
  simp [regOperand, h]

theorem fieldOperand_of_some {R : RegDesc} {k : FieldIdx} {f : FieldDesc} (h : R.fields[k.toNat]? = some f) :
    fieldOperand R k = .ok f := by
  simp [fieldOperand, h]

theorem fieldOperand_of_le {R : RegDesc} {k : FieldIdx} (h : R.fields.length ≤ k.toNat) :
    fieldOperand R k = .error .noSuchField := by
  simp [fieldOperand, h]

theorem codeOperand_of_not_allows {f : FieldDesc} {x : BitVec 11} (h : f.allows (x.setWidth 16) = false) :
    codeOperand f x = .error .noSuchMember ∨ codeOperand f x = .error .operandTooWide := by
  by_cases hx : x.toNat < 2 ^ f.width <;> simp [codeOperand, hx, h]

/-! ## The meanings on accepted operands -/

section Meanings

variable {r : RegIdx} {R : RegDesc} {s : State}

theorem exec_address (hR : s.cfg.reg? r = some R) :
    exec (.address r) s = .next { s with rspPure := some (.okAddress R.address) } := by
  simp [exec, execAddress, regOperand_of_some hR, respondPure]

theorem exec_decode_of_ok {raw : Word} {v : RegVal} (hR : s.cfg.reg? r = some R) (hv : decodeReg R raw = .ok v) :
    exec (.decode r raw) s = .next { s with rspPure := some (.okValue v) } := by
  simp [exec, execDecode, regOperand_of_some hR, hv, respondPure]

theorem exec_decode_of_error {raw : Word} {e : DecodeError} (hR : s.cfg.reg? r = some R)
    (he : decodeReg R raw = .error e) :
    exec (.decode r raw) s = .next { s with rspPure := some (.errDecode e) } := by
  simp [exec, execDecode, regOperand_of_some hR, he, respondPure]

theorem exec_encode {p : ValPort} {v : RegVal} (hR : s.cfg.reg? r = some R) (hv : valOperand R p = .ok v) :
    exec (.encode r p) s = .next { s with rspPure := some (.okWord (encodeReg R v)) } := by
  simp [exec, execEncode, regOperand_of_some hR, hv, respondPure]

theorem exec_getField_of_some {p : ValPort} {v : RegVal} {k : FieldIdx} {c : Word} (hR : s.cfg.reg? r = some R)
    (hv : valOperand R p = .ok v) (hc : v.codes[k.toNat]? = some c) :
    exec (.getField r p k) s = .next { s with rspPure := some (.okField c) } := by
  simp [exec, execGetField, regOperand_of_some hR, hv, hc, respondPure]

theorem exec_getField_of_none {p : ValPort} {v : RegVal} {k : FieldIdx} (hR : s.cfg.reg? r = some R)
    (hv : valOperand R p = .ok v) (hc : v.codes[k.toNat]? = none) :
    exec (.getField r p k) s = .refused .noSuchField := by
  simp [exec, execGetField, regOperand_of_some hR, hv, hc]

theorem exec_withField {p : ValPort} {k : FieldIdx} {x : BitVec 11} (hR : s.cfg.reg? r = some R) :
    exec (.withField r p k x) s = setField R p k x s := by
  simp [exec, execWithField, regOperand_of_some hR]

theorem setField_of_field {p : ValPort} {v : RegVal} {k : FieldIdx} {f : FieldDesc} {x : BitVec 11}
    (hv : valOperand R p = .ok v) (hf : R.fields[k.toNat]? = some f) :
    setField R p k x s
      = onOk (codeOperand f x) fun c => respondPure (.okValue (v.setCode k.toNat c)) s := by
  simp [setField, hv, fieldOperand_of_some hf]

theorem setField_of_le {p : ValPort} {v : RegVal} {k : FieldIdx} {x : BitVec 11} (hv : valOperand R p = .ok v)
    (hk : R.fields.length ≤ k.toNat) : setField R p k x s = .refused .noSuchField := by
  simp [setField, hv, fieldOperand_of_le hk]

/-- What R75 to R77 say of every setter: it completes, keeps the snapshot, and after ENCODE is one insert at the field. -/
theorem setField_answers {p : ValPort} {v : RegVal} {k : FieldIdx} {f : FieldDesc} {x : BitVec 11} (hwf : R.wf = true)
    (hv : valOperand R p = .ok v) (hf : R.fields[k.toNat]? = some f) (hx : f.allows (x.setWidth 16) = true) :
    ∃ u : RegVal, setField R p k x s = .next { s with rspPure := some (.okValue u) } ∧ u.bits = p.bits
      ∧ encodeReg R u = insertField (encodeReg R v) f.offset f.width (x.setWidth 16) := by
  obtain ⟨hbits, hvalid⟩ := valOperand_ok R p v hv
  exact ⟨_, setField_ok R p v k f x s hwf hv hf hx, hbits, set_bit R hwf v hvalid _ f _ hf hx⟩

end Meanings

/-- Settles O11: the entry the index selects; the two mandatory ones are the first two of every table. -/
theorem addressAnswers : Obligations.AddressAnswers := by
  refine ⟨fun r R s hR => exec_address hR, fun s => rfl, fun s => rfl, fun r s hR => ?_, rfl⟩
  simp [exec, execAddress, regOperand_of_none hR]

/-- Settles O14: in a field's span the code, outside every span the snapshot. -/
theorem encodeAnswers : Obligations.EncodeAnswers := by
  refine ⟨rfl, fun r R p v s hR hwf hv => ?_⟩
  obtain ⟨hbits, hvalid⟩ := valOperand_ok R p v hv
  refine ⟨encodeReg R v, exec_encode hR hv, extract_encode R hwf v hvalid, fun i hi => ?_⟩
  rw [← hbits]
  refine encode_out R hwf v hvalid i fun f hf ⟨hlow, hhigh⟩ => ?_
  have := hi f hf
  omega

/-- Settles O15: the stored code, of which there are as many as fields. -/
theorem getFieldAnswers : Obligations.GetFieldAnswers := by
  refine ⟨fun r R p v k c s hR hv hc => exec_getField_of_some hR hv hc, fun r R p v k s hR hv hk => ?_, rfl⟩
  have hlen := validFor_length (valOperand_ok R p v hv).2
  exact exec_getField_of_none hR hv (List.getElem?_eq_none (by omega))

/-- Settles O16: a legal code is set and leaves a register value; the operand checks refuse the rest. -/
theorem withFieldAnswers : Obligations.WithFieldAnswers := by
  refine ⟨fun r R p v k f x s hR hwf hv hf => ?_, fun r R p v k x s hR hv hk => ?_, rfl⟩
  · rw [exec_withField hR]
    obtain ⟨hbits, hvalid⟩ := valOperand_ok R p v hv
    refine ⟨fun hx => ⟨?_, validCodes_set _ _ _ f _ hvalid hf hx⟩, fun hx => ?_⟩
    · rw [setField_ok R p v k f x s hwf hv hf hx, ← hbits]; rfl
    · rw [setField_of_field hv hf]
      exact (codeOperand_of_not_allows hx).imp (fun h => by rw [h, onOk_error]) fun h => by rw [h, onOk_error]
  · rw [exec_withField hR, setField_of_le hv hk]

/-! ## Undefined patterns -/

theorem allows_eq_false_iff (f : FieldDesc) (c : Word) : f.allows c = false ↔
    (f.domain = .raw ∧ 2 ^ f.width ≤ c.toNat) ∨ ∃ ms, f.domain = .enumerated ms ∧ ∀ m ∈ ms, m.2 ≠ c.toNat := by
  cases hd : f.domain with
  | raw => simp [FieldDesc.allows, hd]
  | enumerated ms => simp [FieldDesc.allows, hd]

/-- An extracted integer fits its field, so a raw field holds no undefined pattern (R57). -/
theorem allows_extract_eq_false_iff {f : FieldDesc} (hwf : f.wf = true) (raw : Word) :
    f.allows (extractField raw f.offset f.width) = false ↔
      ∃ ms, f.domain = .enumerated ms ∧ ∀ m ∈ ms, m.2 ≠ (extractField raw f.offset f.width).toNat := by
  have hbounds := fwf_bounds f hwf
  have hlt := extract_lt raw f.offset f.width (by omega)
  rw [allows_eq_false_iff]
  exact or_iff_right fun ⟨_, hge⟩ => absurd hlt (Nat.not_lt.2 hge)

theorem decodeReg_error_iff (R : RegDesc) (raw : Word) : (∃ e, decodeReg R raw = .error e) ↔
    ∃ f ∈ R.fields, f.allows (extractField raw f.offset f.width) = false := by
  rcases decodeFields_cases raw 0 R.fields with hall | ⟨hbad, e, he⟩
  · refine iff_of_false ?_ ?_
    · rintro ⟨e, he⟩
      rw [decodeReg_ok R raw hall] at he
      cases he
    · rintro ⟨f, hf, hbad⟩
      simp [hall f hf] at hbad
  · exact iff_of_true ⟨e, by simp [decodeReg, he, Except.map]⟩ hbad

/-- DECODE with a first undefined pattern (R71). -/
theorem decodeReg_bad {R : RegDesc} {raw : Word} {k : Nat} {f : FieldDesc} (hf : R.fields[k]? = some f)
    (hbad : f.allows (extractField raw f.offset f.width) = false)
    (hbefore : ∀ (j : Nat) (g : FieldDesc), j < k → R.fields[j]? = some g →
      g.allows (extractField raw g.offset g.width) = true) :
    decodeReg R raw = .error (.invalidFieldValue k (extractField raw f.offset f.width)) := by
  simp [decodeReg, decodeFields_bad raw 0 k R.fields f hf hbad hbefore, Except.map]

/-- Settles O12: the two outcomes of the loop of DECODE, and what a domain leaves out. -/
theorem decodeAnswers : Obligations.DecodeAnswers :=
  ⟨fun _ R raw _ hR hall => exec_decode_of_ok hR (decodeReg_ok R raw hall),
    fun _ _ _ _ _ _ hR hf hbad hbefore => exec_decode_of_error hR (decodeReg_bad hf hbad hbefore),
    allows_eq_false_iff, rfl⟩

/-! ## The two mandatory registers -/

/-- Field 0 of `GateDriveControl` (R12). -/
def commOptionField : FieldDesc where
  name := .commOption
  offset := 9
  width := 1
  domain := .enumerated [(.diode, 0), (.active, 1)]

/-- Field 1 of `GateDriveControl` (R12). -/
def pwmModeField : FieldDesc where
  name := .pwmMode
  offset := 7
  width := 2
  domain := .enumerated [(.six, 0), (.three, 1), (.one, 2)]

theorem gateDriveControl_fields : gateDriveControl.fields = [commOptionField, pwmModeField] := rfl

theorem gateDriveControl_wf : gateDriveControl.wf = true := by decide

theorem commOptionField_allows_iff (c : Word) : commOptionField.allows c = true ↔ c.toNat < 2 := by
  simp [FieldDesc.allows, commOptionField]
  omega

theorem pwmModeField_allows_iff (c : Word) : pwmModeField.allows c = true ↔ c.toNat < 3 := by
  simp [FieldDesc.allows, pwmModeField]
  omega

theorem commOptionField_allows_extract (raw : Word) : commOptionField.allows (extractField raw 9 1) = true :=
  (commOptionField_allows_iff _).2 (extract_lt raw 9 1 (by decide))

/-- A field moved back to its place is the word under the field's mask (R56). -/
theorem extractField_shiftLeft (raw : Word) (o w : Nat) : extractField raw o w <<< o = raw &&& (mask w <<< o) := by
  apply word_ext
  intro i
  simp only [extractField, BitVec.getLsbD_shiftLeft, BitVec.getLsbD_ushiftRight, BitVec.getLsbD_and]
  by_cases hi : i < o
  · simp [hi]
  · by_cases h16 : i < 16
    · simp [hi, h16, Nat.add_sub_cancel' (Nat.not_lt.1 hi)]
    · simp [h16]

/-- The one undefined pattern of `pwm_mode`, by the mask of R82. -/
theorem extract_pwmMode_eq_three_iff (raw : Word) : extractField raw 7 2 = 3#16 ↔ raw &&& 0x0180#16 = 0x0180#16 := by
  constructor
  · intro h
    calc raw &&& 0x0180#16 = extractField raw 7 2 <<< 7 := (extractField_shiftLeft raw 7 2).symm
      _ = 0x0180#16 := by rw [h]; rfl
  · intro h
    rw [show extractField raw 7 2 = (raw &&& 0x0180#16) >>> 7 from rfl, h]; rfl

theorem pwmModeField_allows_extract_eq_false_iff (raw : Word) :
    pwmModeField.allows (extractField raw 7 2) = false ↔ raw &&& 0x0180#16 = 0x0180#16 := by
  have hlt := extract_lt raw 7 2 (by decide)
  rw [← extract_pwmMode_eq_three_iff, ← Bool.not_eq_true, pwmModeField_allows_iff, ← BitVec.toNat_inj, BitVec.toNat_ofNat]
  omega

theorem decodeReg_gateDriveControl_error {raw : Word} (h : raw &&& 0x0180#16 = 0x0180#16) :
    decodeReg gateDriveControl raw = .error (.invalidFieldValue 1 3#16) := by
  rw [← (extract_pwmMode_eq_three_iff raw).2 h]
  refine decodeReg_bad (f := pwmModeField) rfl ((pwmModeField_allows_extract_eq_false_iff raw).2 h) fun j g hj hg => ?_
  obtain rfl : j = 0 := by omega
  cases hg
  exact commOptionField_allows_extract raw

theorem warningAndWatchdog_wf {p : Params} (h : p.wf = true) : (warningAndWatchdog p.wwFlags).wf = true := by
  simp only [Params.wf, Bool.and_eq_true, List.all_eq_true] at h
  obtain ⟨⟨⟨⟨⟨htable, -⟩, -⟩, -⟩, -⟩, -⟩ := h
  exact htable _ (by simp [Params.regTable])

theorem wwFlags_length {p : Params} (h : p.wf = true) : p.wwFlags.length = 10 := by
  simp only [Params.wf, Bool.and_eq_true, decide_eq_true_eq] at h
  obtain ⟨⟨⟨⟨-, hlen⟩, -⟩, -⟩, -⟩ := h
  exact hlen

/-- Settles O13: only an enumeration leaves a pattern out, and of the two mandatory registers only `pwm_mode` does. -/
theorem decodeDomainOfFailure : Obligations.DecodeDomainOfFailure := by
  refine ⟨fun R raw hwf => ?_, fun raw => ?_, fun raw h => decodeReg_gateDriveControl_error h, fun p raw hwf => ?_⟩
  · rw [decodeReg_error_iff]
    exact exists_congr fun f => and_congr_right fun hf => allows_extract_eq_false_iff ((rwf R hwf).1 f hf) raw
  · refine ⟨fun h => ?_, fun h => ⟨_, decodeReg_gateDriveControl_error h⟩⟩
    obtain ⟨f, hf, hbad⟩ := (decodeReg_error_iff _ _).1 h
    rw [gateDriveControl_fields, List.mem_pair] at hf
    rcases hf with rfl | rfl
    · cases (commOptionField_allows_extract raw).symm.trans hbad
    · exact (pwmModeField_allows_extract_eq_false_iff raw).1 hbad
  · refine ⟨_, decodeReg_ok _ raw fun f hf => ?_⟩
    rw [← Bool.not_eq_false, allows_extract_eq_false_iff ((rwf _ (warningAndWatchdog_wf hwf)).1 f hf)]
    rintro ⟨ms, hd, -⟩
    obtain ⟨o, -, rfl⟩ := List.mem_map.1 hf
    cases hd

/-- Settles O17: each setter is one insert, at bit 9 or at bits 8:7. -/
theorem gateDriveSetters : Obligations.GateDriveSetters := by
  intro p v s hv
  constructor <;> intro x
  · have hx : commOptionField.allows (x.code.setWidth 16) = true := by cases x <;> decide
    obtain ⟨u, hexec, hbits, henc⟩ := setField_answers (s := s) (k := 0#4) gateDriveControl_wf hv rfl hx
    refine ⟨u, hexec, ?_, hbits, ?_⟩
    · cases x <;> exact hexec
    · rw [henc]; cases x <;> rfl
  · have hx : pwmModeField.allows (x.code.setWidth 16) = true := by cases x <;> decide
    obtain ⟨u, hexec, hbits, henc⟩ := setField_answers (s := s) (k := 1#4) gateDriveControl_wf hv rfl hx
    refine ⟨u, hexec, ?_, hbits, ?_⟩
    · cases x <;> exact hexec
    · rw [henc]; cases x <;> rfl

/-- The operand of a flag is one bit wide, so bit 0 is all of it. -/
theorem flagOperand_lt : ∀ b : BitVec 1, ((b.setWidth 11).setWidth 16 : Word).toNat < 2 ^ 1 := by decide

theorem flagOperand_getLsbD_zero (b : BitVec 1) : ((b.setWidth 11).setWidth 16 : Word).getLsbD 0 = b.getLsbD 0 := by
  simp

/-- Settles O18: the setter is one insert, one bit wide. -/
theorem flagSetters : Obligations.FlagSetters := by
  intro p v j b s hwf hv hj
  have hR := warningAndWatchdog_wf hwf
  obtain ⟨o, ho⟩ : ∃ o, s.cfg.wwFlags[j.toNat]? = some o :=
    ⟨_, List.getElem?_eq_getElem (by rw [wwFlags_length hwf]; exact hj)⟩
  have hf : (warningAndWatchdog s.cfg.wwFlags).fields[j.toNat]? = some (wwFlagField o) := by
    simp [warningAndWatchdog, ho]
  obtain ⟨-, hend⟩ : 1 ≤ 1 ∧ o.2 + 1 ≤ 11 := fwf_bounds _ ((rwf _ hR).1 _ (List.mem_of_getElem? hf))
  have hx : (wwFlagField o).allows ((b.setWidth 11).setWidth 16) = true := decide_eq_true (flagOperand_lt b)
  obtain ⟨u, hexec, hbits, henc⟩ := setField_answers (s := s) hR hv hf hx
  have hbit (i : Nat) : (encodeReg (warningAndWatchdog s.cfg.wwFlags) u).getLsbD i
      = if o.2 ≤ i ∧ i < o.2 + 1 then ((b.setWidth 11).setWidth 16 : Word).getLsbD (i - o.2)
        else (encodeReg (warningAndWatchdog s.cfg.wwFlags) v).getLsbD i := by
    rw [henc]
    exact insert_bit _ _ o.2 1 i (by omega) (flagOperand_lt b)
  refine ⟨o, u, ho, hexec, hexec, hbits, ?_, fun i hi => ?_⟩
  · rw [hbit, if_pos ⟨le_rfl, Nat.lt_succ_self _⟩, Nat.sub_self, flagOperand_getLsbD_zero]
  · rw [hbit, if_neg (by omega)]

end Sys2Proof.Machine
end

section
/-! PROOFS. The framer (R90 to R95): the wire word as a number, the parse as the inverse of TO_WIRE, and the meanings of
the four framer operations. -/

namespace Sys2Proof.Machine

/-! ## The wire word as a number -/

/-- R94 before the kind and the address are chosen: the three parts of R50 stand side by side, so the sum fits 16 bits. -/
theorem toNat_toWire (c : CmdWord) :
    (toWire c).toNat = 32768 * c.kind.bit + 2048 * c.address.toNat + c.payload.toNat := by
  have hk := kind_bit_lt c.kind
  have ha := c.address.isLt
  have hp := c.payload.isLt
  rw [toWire_eq, encodeCmd, BitVec.toNat_ofNat]
  omega

theorem toNat_toWire_makeRead (a : Addr) : (toWire (makeRead a)).toNat = 0x8000 + 2048 * a.toNat := by
  simp [toNat_toWire, makeRead, Kind.bit]

theorem toNat_toWire_write (a : Addr) (d : Payload) :
    (toWire ⟨.write, a, d⟩).toNat = 2048 * a.toNat + d.toNat := by
  simp [toNat_toWire, Kind.bit]

/-- Settles O5: the word of a read and of a write as numbers; a payload below 2048 is its own low eleven bits. -/
theorem framingExactness : Obligations.FramingExactness := by
  refine ⟨toNat_toWire_makeRead, fun a p hp => ⟨_, makeWrite_lt a p hp, ?_⟩, by decide⟩
  rw [toNat_toWire_write, BitVec.toNat_setWidth, Nat.mod_eq_of_lt hp]

/-! ## The image of TO_WIRE -/

theorem toWire_parseCmd (w : Word) : toWire (parseCmd w) = w := by
  rw [toWire_eq, encode_parse]

/-- The parse and TO_WIRE are inverse to each other, on every word and every command word (R95). -/
theorem parseCmd_eq_iff {w : Word} {c : CmdWord} : parseCmd w = c ↔ w = toWire c :=
  ⟨fun h => h ▸ (toWire_parseCmd w).symm, fun h => h ▸ parseCmd_toWire c⟩

/-- R15: the framer makes every write and, of the reads, those MAKE_READ makes. -/
theorem constructible_iff (c : CmdWord) : c.constructible = true ↔ c.kind = .write ∨ ∃ a, c = makeRead a := by
  obtain ⟨k, a, d⟩ := c
  cases k <;> simp [CmdWord.constructible, makeRead]

/-- Bit 15 is the kind (R50). -/
theorem getLsbD_15_eq_false_iff (w : Word) : w.getLsbD 15 = false ↔ (parseCmd w).kind = .write := by
  have hmsb : w.getLsbD 15 = decide (2 ^ 15 ≤ w.toNat) := BitVec.msb_eq_decide w
  rw [hmsb, decide_eq_false_iff_not, not_le, parse_kind]
  by_cases h : w.toNat < 32768 <;> simp [h]

/-- A word is sent exactly when its parse is a command word the framer makes. -/
theorem exists_toWire_eq_iff (w : Word) :
    (∃ c : CmdWord, c.constructible = true ∧ toWire c = w) ↔ (parseCmd w).constructible = true :=
  ⟨fun ⟨c, hc, hw⟩ => by rw [parseCmd_eq_iff.2 hw.symm]; exact hc, fun h => ⟨parseCmd w, h, toWire_parseCmd w⟩⟩

/-- Settles O6: TO_WIRE has the parse as its inverse, and what is constructible is told from the parse. -/
theorem wireImage : Obligations.WireImage := by
  refine ⟨fun c d _ _ h => ?_, parseCmd_toWire, fun w => ?_⟩
  · rw [← parseCmd_toWire c, h, parseCmd_toWire]
  · rw [exists_toWire_eq_iff, constructible_iff, getLsbD_15_eq_false_iff]
    simp only [parseCmd_eq_iff]

/-! ## The meanings -/

section Meanings

variable {s : State}

theorem exec_makeRead (a : Addr) : exec (.makeRead a) s = .next { s with rspPure := some (.okCommand (makeRead a)) } :=
  rfl

theorem exec_makeWrite_of_ok {a : Addr} {p : Word} {c : CmdWord} (h : makeWrite a p = .ok c) :
    exec (.makeWrite a p) s = .next { s with rspPure := some (.okCommand c) } := by
  simp [exec, execMakeWrite, h, respondPure]

theorem exec_makeWrite_of_error {a : Addr} {p : Word} {e : FramingError} (h : makeWrite a p = .error e) :
    exec (.makeWrite a p) s = .next { s with rspPure := some (.errFraming e) } := by
  simp [exec, execMakeWrite, h, respondPure]

theorem exec_toWire_of_constructible {c : CmdWord} (h : c.constructible = true) :
    exec (.toWire c) s = .next { s with rspPure := some (.okWord (toWire c)) } := by
  simp [exec, execToWire, h, respondPure]

theorem exec_toWire_of_not_constructible {c : CmdWord} (h : c.constructible = false) :
    exec (.toWire c) s = .refused .unconstructibleCommand := by
  simp [exec, execToWire, h]

theorem exec_fromWire (raw : Word) : exec (.fromWire raw) s = .next { s with rspPure := some (.okWord raw) } :=
  rfl

end Meanings

/-- Settles O7: MAKE_READ has no failing path. -/
theorem makeReadAnswers : Obligations.MakeReadAnswers :=
  ⟨fun a _ => exec_makeRead a, rfl, by decide⟩

/-- Settles O8: the framer's answer is the response, and the mask of R91 leaves zero exactly below 2048. -/
theorem makeWriteAnswers : Obligations.MakeWriteAnswers := by
  refine ⟨fun a p s hp => exec_makeWrite_of_ok (makeWrite_lt a p hp),
    fun a p s hp => exec_makeWrite_of_error (makeWrite_ge a p hp), fun p => ?_, rfl,
    ⟨_, makeWrite_lt _ _ (by decide), by decide⟩, makeWrite_ge _ _ (by decide)⟩
  rw [Ne, and_F800, not_lt]

/-- Settles O9: the word of R50 as a number, the kind's bit worth 32768. -/
theorem toWireAnswers : Obligations.ToWireAnswers := by
  refine ⟨fun c s hc => ⟨toWire c, exec_toWire_of_constructible hc, ?_⟩,
    fun c s hc => exec_toWire_of_not_constructible hc, rfl, by decide, by decide⟩
  rw [toNat_toWire]
  cases c.kind <;> rfl

/-- Settles O10: FROM_WIRE is the identity. -/
theorem fromWireAnswers : Obligations.FromWireAnswers :=
  ⟨fun raw _ => exec_fromWire raw, rfl⟩

end Sys2Proof.Machine
end

section
/-! PROOFS. The order of the boundary events (R100, R105): a clock adds at most one event, and that event stands where
the phase the clock began in puts it. -/

namespace Sys2Proof.Machine

theorem busRun_append (p : Params) (m : BusMode) (es fs : List Event) :
    busRun p m (es ++ fs) = (busRun p m es).bind fun m' => busRun p m' fs := by
  induction es generalizing m with
  | nil => rfl
  | cons e es ih =>
    simp only [List.cons_append, busRun]
    cases busNext p m e with
    | none => rfl
    | some m' => exact ih m'

/-- A clock without an event that leaves the trace's place alone. -/
theorem TraceShape.silent {s t : State} (h : TraceShape s) (hcfg : t.cfg = s.cfg) (htr : t.trace = s.trace)
    (hmode : t.busMode = s.busMode) : TraceShape t := by
  rw [TraceShape, hcfg, htr, hmode]
  exact h

/-- A clock with one event, at its place. -/
theorem TraceShape.event {s t : State} (h : TraceShape s) (e : Event) (hcfg : t.cfg = s.cfg)
    (htr : t.trace = s.trace ++ [e]) (hnext : busNext s.cfg s.busMode e = some t.busMode) : TraceShape t := by
  rw [TraceShape] at h ⊢
  rw [hcfg, htr, busRun_append, h]
  simp [busRun, hnext]

/-- A request is accepted with chip-select high and the inter-frame minimum kept (R101, R108). -/
theorem TraceShape.of_execCase {s t : State} (h : TraceShape s) (hc : ExecCase s t) : TraceShape t := by
  cases hc with
  | pure t ht => rw [ht]; exact h
  | framing r _ => exact h
  | accept op r c hb =>
    obtain ⟨-, hph⟩ : s.opv = false ∧ s.phase = .idle := by simpa [State.busy] using hb
    exact h.event .csLow rfl rfl (by simp [State.busMode, hph, busNext])

/-- Each transition of the sequencer raises the event its phase allows, or none (R102 to R107). -/
theorem TraceShape.of_tickCase {p : Pins} {s t : State} (h : TraceShape s) (hinv : SeqInv s) (hc : TickCase p s t) :
    TraceShape t := by
  have opv (hf : s.phase.framed = true) : s.opv = true := hinv.opv_of_framed hf
  cases hc with
  | rest | wait | setupCount | holdCount => exact h
  | writeBad e hph => exact h.silent rfl rfl (by simp [State.busMode, hph])
  | holdRest hph _ hopv => exact h.silent rfl rfl (by simp [State.busMode, hph, hopv])
  | write c hph | reread R hph => exact h.event .csLow rfl rfl (by simp [State.busMode, hph, busNext])
  | setupEnd hph => exact h.event (.delay s.cfg.tCsSetupMinNs) rfl rfl (by simp [State.busMode, hph, busNext])
  | sendOk hph =>
    have hcmd := hinv.cmdWord (opv (by rw [hph]; rfl))
    exact h.event (.send s.cmd .ok) rfl rfl (by simp [State.busMode, hph, busNext, hcmd])
  | sendErr e hph =>
    have hcmd := hinv.cmdWord (opv (by rw [hph]; rfl))
    exact h.event (.send s.cmd (.err e)) rfl rfl (by simp [State.busMode, hph, busNext, hcmd])
  | recvOk w hph => exact h.event (.receive (.ok w)) rfl rfl (by simp [State.busMode, hph, busNext])
  | recvErr e hph => exact h.event (.receive (.err e)) rfl rfl (by simp [State.busMode, hph, busNext])
  | release hph =>
    exact h.event .csHigh rfl rfl (by simp [State.busMode, hph, busNext, opv (by rw [hph]; rfl)])
  | holdEnd r hph _ hopv | callback R v hph _ hopv | discard hph _ hopv =>
    exact h.event (.delay s.cfg.tCsHighMinNs) rfl rfl (by simp [State.busMode, hph, hopv, busNext])

/-- A reset releases the line from wherever the trace stands (R141). -/
theorem TraceShape.resetState {s : State} (h : TraceShape s) : TraceShape (resetState s) :=
  h.event .rst rfl rfl (by cases s.busMode <;> rfl)

/-- Settles O47: a clock is a reset, a transition of the sequencer or an accepted request, and each puts its event at
its place. -/
theorem stepKeepsTraceShape : Obligations.StepKeepsTraceShape := by
  intro s t hinv h hstep
  have clear (a : Option Response) : SeqInv { s.dropPins.clearStrobes with rspPure := a } := hinv.withOutputs _ _ _ _
  cases (step_case s t hstep).2 with
  | reset => exact TraceShape.resetState (s := s.dropPins) h
  | tick _ _ ht => exact TraceShape.of_tickCase (s := s.dropPins.clearStrobes) h (clear none) (tick_case _ _ _ ht)
  | pureTick r _ _ ht =>
    exact TraceShape.of_tickCase (s := { s.dropPins.clearStrobes with rspPure := r }) h (clear r) (tick_case _ _ _ ht)
  | exec _ _ _ hc => exact TraceShape.of_execCase (s := s.dropPins.clearStrobes) h hc

end Sys2Proof.Machine
end

section
/-! PROOFS. The clock that presents a driver request (R101, R108): what a ready block answers, and that a busy one turns
it away. -/

namespace Sys2Proof.Machine

theorem whenReady_of_ready {s : State} {o : Out} (hb : s.busy = false) : whenReady s o = o := by
  simp [whenReady, hb]

theorem whenReady_of_busy {s : State} {o : Out} (hb : s.busy = true) : whenReady s o = .next s := by
  simp [whenReady, hb]

section Ready

variable {s : State} (hb : s.busy = false)
include hb

theorem acceptExecute_of_constructible {c : CmdWord} (hc : c.constructible = true) :
    acceptExecute c s = .next (acceptDriver .execute s.reg c s) := by
  simp [acceptExecute, whenReady_of_ready hb, hc]

theorem acceptExecute_of_not_constructible {c : CmdWord} (hc : c.constructible = false) :
    acceptExecute c s = .refused .unconstructibleCommand := by
  simp [acceptExecute, whenReady_of_ready hb, hc]

theorem acceptRead_of_some {o : HostOp} {r : RegIdx} {R : RegDesc} (hR : s.cfg.reg? r = some R) :
    acceptRead o r s = .next (acceptDriver o r (makeRead R.address) s) := by
  simp [acceptRead, whenReady_of_ready hb, regOperand_of_some hR]

theorem exec_write_of_ok {r : RegIdx} {R : RegDesc} {p : ValPort} {v : RegVal} {c : CmdWord}
    (hR : s.cfg.reg? r = some R) (hv : valOperand R p = .ok v) (hc : makeWrite R.address (encodeReg R v) = .ok c) :
    exec (.write r p) s = .next (acceptDriver .write r c s) := by
  simp [exec, execWrite, whenReady_of_ready hb, regOperand_of_some hR, hv, hc]

theorem exec_write_of_error {r : RegIdx} {R : RegDesc} {p : ValPort} {v : RegVal} {e : FramingError}
    (hR : s.cfg.reg? r = some R) (hv : valOperand R p = .ok v) (he : makeWrite R.address (encodeReg R v) = .error e) :
    exec (.write r p) s = .next { s with rspDrv := some (.errDriver (.framing e)) } := by
  simp [exec, execWrite, whenReady_of_ready hb, regOperand_of_some hR, hv, he]

end Ready

theorem exec_modifyReread_of_built {r : RegIdx} {s : State} (hopt : s.cfg.hasModifyReread = true) :
    exec (.modifyReread r) s = acceptRead .modifyReread r s := by
  simp [exec, execModifyReread, hopt]

/-- Settles O25: EXECUTE, RD and WR are the same acceptance, of their command word. -/
theorem executeAccepted : Obligations.ExecuteAccepted := by
  refine ⟨fun c s hb hc => acceptExecute_of_constructible hb hc, fun a s hb => ?_, fun a d s hb => ?_,
    fun c s hb hc => acceptExecute_of_not_constructible hb hc⟩
  · rw [← toWire_makeRead]
    exact acceptExecute_of_constructible hb rfl
  · rw [← toWire_write]
    exact acceptExecute_of_constructible hb rfl

/-- Settles O26: the three operations are the same acceptance, of the register's read command. -/
theorem readFrameAccepted : Obligations.ReadFrameAccepted := by
  intro r R s hb hR
  rw [← toWire_makeRead]
  refine ⟨acceptRead_of_some hb hR, acceptRead_of_some hb hR, fun hopt => ?_⟩
  rw [exec_modifyReread_of_built hopt]
  exact acceptRead_of_some hb hR

/-- Fields lie in bits 10:0, so the bits above are the snapshot's (R10, R58). -/
theorem encodeReg_highBits {R : RegDesc} {v : RegVal} (hwf : R.wf = true) (hv : v.validFor R = true) :
    encodeReg R v &&& 0xF800#16 = v.bits &&& 0xF800#16 := by
  apply word_ext
  intro i
  rw [BitVec.getLsbD_and, BitVec.getLsbD_and]
  by_cases hi : i < 11
  · have hmask : ∀ j < 11, (0xF800#16 : Word).getLsbD j = false := by decide
    rw [hmask i hi, Bool.and_false, Bool.and_false]
  · rw [encode_out R hwf v hv i fun f hf ⟨_, hend⟩ => ?_]
    obtain ⟨-, hbound⟩ := fwf_bounds f ((rwf R hwf).1 f hf)
    omega

/-- The wire word of the write of a word that fits the payload (R53, R92). -/
theorem toWire_write_of_lt (a : Addr) {w : Word} (h : w.toNat < 2048) :
    toWire ⟨.write, a, w.setWidth 11⟩ = (a.setWidth 16 <<< 11) ||| w := by
  have hback : (w.setWidth 11).setWidth 16 = w := by
    apply BitVec.eq_of_toNat_eq
    rw [BitVec.toNat_setWidth, BitVec.toNat_setWidth]
    omega
  rw [toWire_write, hback]

/-- Settles O27: the framer's test of bits 15:11 is a test of the snapshot, since no field reaches them. -/
theorem writeAccepted : Obligations.WriteAccepted := by
  intro r R p v s hb hR hwf hv
  obtain ⟨hbits, hvalid⟩ := valOperand_ok R p v hv
  rw [← hbits, ← encodeReg_highBits hwf hvalid, Ne, and_F800]
  constructor
  · intro hlow
    rw [← toWire_write_of_lt _ hlow]
    exact exec_write_of_ok hb hR hv (makeWrite_lt _ _ hlow)
  · intro hhigh
    exact exec_write_of_error hb hR hv (makeWrite_ge _ _ (Nat.not_lt.1 hhigh))

/-- A driver operation on a busy block, whatever its operands (R108). -/
theorem exec_driver_of_busy {i : Instr} {s : State} (hi : i.isDriver = true) (hb : s.busy = true) :
    exec i s = .next s := by
  cases i with
  | rd | wr | execute | read | write | modify => exact whenReady_of_busy hb
  | modifyReread r =>
    simp only [exec, execModifyReread, acceptRead, whenReady_of_busy hb, ite_self]
  | _ => cases hi

/-- A driver request on a busy block leaves the clock to the sequencer, also when no instruction can be read from it. -/
theorem clockRequest_of_busy {p : Pins} {q : Request} {s : State} (hb : s.busy = true)
    (hq : Request.asksDriver q = true) : clockRequest p q s = tick p s := by
  cases hdec : decodeRequest q with
  | error e => simp [clockRequest, hdec, hb, hq]
  | ok i =>
    have hi : i.isDriver = true := (asksDriver_of_decode hdec).symm.trans hq
    simp [clockRequest, hdec, exec_driver_of_busy hi hb, onNext, hb]

/-- The sequencer does not look at the request ports. -/
theorem tick_req (p : Pins) (q : Option Request) (s : State) : tick { p with req := q } s = tick p s := rfl

/-- Settles O28: `exec` turns the request away, and the rest of the clock is the sequencer's. -/
theorem busyTurnsDriverAway : Obligations.BusyTurnsDriverAway := by
  refine ⟨fun i s => exec_driver_of_busy, fun p q s hb hq => ?_⟩
  have hclear : s.clearStrobes.busy = true := hb
  simp only [clock, clockRequest_of_busy hclear hq, tick_req]

end Sys2Proof.Machine
end

section
/-! PROOFS. The sequencer phase by phase (R102 to R107), what the operation layer does with a frame's result, when a
result is presented, and that there is no time-out (R109). -/

namespace Sys2Proof.Machine

/-! ## The phases of a frame -/

section Phases

variable {p : Pins} {s : State}

theorem tick_setup (hph : s.phase = .setup) : tick p s = .next (tickSetup s) := by
  simp [tick, hph]

theorem tick_send (hph : s.phase = .send) : tick p s = tickSend p s := by
  simp [tick, hph]

theorem tick_recv (hph : s.phase = .recv) : tick p s = tickRecv p s := by
  simp [tick, hph]

theorem tick_release (hph : s.phase = .release) : tick p s = .next (releaseFrame s) := by
  simp [tick, hph]

theorem tick_hold (hph : s.phase = .hold) : tick p s = tickHold p s := by
  simp [tick, hph]

theorem tick_hold_of_ne_zero (hph : s.phase = .hold) (hcnt : s.cnt ≠ 0) :
    tick p s = .next { s with cnt := s.cnt - 1 } := by
  simp [tick_hold hph, tickHold, hcnt]

theorem tick_hold_of_rest (hph : s.phase = .hold) (hcnt : s.cnt = 0) (hopv : s.opv = false) :
    tick p s = .next { s with phase := .idle } := by
  simp [tick_hold hph, tickHold, hcnt, hopv]

/-- The clock in which `HOLD` ends hands the frame's result to the operation layer (R107). -/
theorem tick_holdEnd (hph : s.phase = .hold) (hcnt : s.cnt = 0) (hopv : s.opv = true) :
    tick p s = frameDone p.modRes s.holdEnded := by
  simp [tick_hold hph, tickHold, hcnt, hopv, State.holdEnded]

theorem tickSend_of_wait (h : p.txDone = false) : tickSend p s = .next s := by
  simp [tickSend, h]

theorem tickRecv_of_wait (h : p.rxDone = false) : tickRecv p s = .next s := by
  simp [tickRecv, h]

theorem errOperand_of_lt {c : Params} {e : Nat} (h : e < 2 ^ c.terrW) : errOperand c e = .ok e := by
  simp [errOperand, h]

theorem tickSend_of_ok (hdone : p.txDone = true) (hok : p.txErr = false) :
    tickSend p s = .next (({ s with phase := .recv }).emit (.send s.cmd .ok)) := by
  simp [tickSend, hdone, hok]

theorem tickSend_of_err (hdone : p.txDone = true) (herr : p.txErr = true) (hlt : p.tErr < 2 ^ s.cfg.terrW) :
    tickSend p s = .next ((latchTransportError p.tErr s).emit (.send s.cmd (.err p.tErr))) := by
  simp [tickSend, hdone, herr, errOperand_of_lt hlt]

theorem tickRecv_of_ok (hdone : p.rxDone = true) (hok : p.rxErr = false) :
    tickRecv p s = .next (({ s with rply := p.rxWord, phase := .release }).emit (.receive (.ok p.rxWord))) := by
  simp [tickRecv, hdone, hok]

theorem tickRecv_of_err (hdone : p.rxDone = true) (herr : p.rxErr = true) (hlt : p.tErr < 2 ^ s.cfg.terrW) :
    tickRecv p s = .next ((latchTransportError p.tErr s).emit (.receive (.err p.tErr))) := by
  simp [tickRecv, hdone, herr, errOperand_of_lt hlt]

end Phases

/-- Settles O35: the two branches of `SETUP`, and the requests as functions of the phase. -/
theorem setupPhase : Obligations.SetupPhase := by
  intro p s hph
  rw [tick_setup hph]
  refine ⟨fun hcnt => ?_, fun hcnt => ?_, by simp [State.txReq, hph], by simp [State.rxReq, hph]⟩
  · rw [tickSetup, if_neg hcnt]
  · rw [tickSetup, if_pos hcnt]
    exact ⟨_, rfl, rfl, rfl, rfl⟩

/-- Settles O36: the three branches of `SEND`. -/
theorem sendPhase : Obligations.SendPhase := by
  intro p s hph
  rw [tick_send hph]
  exact ⟨tickSend_of_wait, fun hdone hok => ⟨_, tickSend_of_ok hdone hok, rfl, rfl⟩, tickSend_of_err,
    by simp [State.rxReq, hph]⟩

/-- Settles O37: the three branches of `RECV`. -/
theorem recvPhase : Obligations.RecvPhase := by
  intro p s hph
  rw [tick_recv hph]
  exact ⟨tickRecv_of_wait, tickRecv_of_ok, tickRecv_of_err⟩

/-- A frame leaves `SETUP`, `SEND` and `RECV` only by `RELEASE` (R102 to R104). -/
theorem TickCase.phase_of_inFrame {p : Pins} {s t : State} (hc : TickCase p s t)
    (hph : s.phase = .setup ∨ s.phase = .send ∨ s.phase = .recv) :
    t.phase = .setup ∨ t.phase = .send ∨ t.phase = .recv ∨ t.phase = .release := by
  cases hc with
  | wait | setupCount => exact hph.imp_right (Or.imp_right Or.inl)
  | setupEnd => exact .inr (.inl rfl)
  | sendOk => exact .inr (.inr (.inl rfl))
  | sendErr | recvErr | recvOk => exact .inr (.inr (.inr rfl))
  | rest h | write _ h | writeBad _ h | reread _ h | release h | holdCount h | holdRest h | holdEnd _ h | callback _ _ h
  | discard h => simp [h] at hph

/-- Settles O38: the one branch of `RELEASE`, and the transitions of the three phases before it. -/
theorem releasePhase : Obligations.ReleasePhase :=
  ⟨fun _ _ hph => tick_release hph, fun _ _ _ hph ht => (tick_case _ _ _ ht).phase_of_inFrame hph⟩

/-! ## The frame's result -/

/-- What the latches hold when a frame ends: its result (R107). -/
def State.HoldsResult (s : State) : Except Nat Word → Prop
  | .ok w => s.errf = false ∧ s.rply = w
  | .error e => s.errf = true ∧ s.terr = e

/-- The operations whose frames read or write a register (R110 to R113). -/
def IsTyped (o : HostOp) : Prop := o = .read ∨ o = .write ∨ o = .modify ∨ o = .modifyReread

theorem frameDone_execute {mr : ValPort} {u : State} {x : Except Nat Word} (hop : u.op = .execute)
    (hx : u.HoldsResult x) : frameDone mr u = .next (endOp (rspOfExecute x) u) := by
  cases x with
  | ok w =>
    obtain ⟨herr, rfl⟩ := hx
    simp [frameDone, hop, herr, rspOfExecute, fromWire]
  | error e =>
    obtain ⟨herr, rfl⟩ := hx
    simp [frameDone, hop, herr, rspOfExecute]

theorem frameDone_typed_of_error {mr : ValPort} {u : State} (hop : IsTyped u.op) (herr : u.errf = true) :
    frameDone mr u = .next (endOp (.errDriver (.transport u.terr)) u) := by
  rcases hop with hop | hop | hop | hop <;> simp [frameDone, hop, herr]

theorem frameDone_typed_of_ok {mr : ValPort} {u : State} {R : RegDesc} (hop : IsTyped u.op) (herr : u.errf = false)
    (hR : u.cfg.reg? u.reg = some R) : frameDone mr u = typedFrameDone mr R u := by
  rcases hop with hop | hop | hop | hop <;> simp [frameDone, hop, herr, regOperand_of_some hR]

/-- The last frame of READ, MODIFY and MODIFY_REREAD: the result is the decode of its reply (R110, R112, R113). -/
theorem endWithDecode_eq_srcDecode (R : RegDesc) (u : State) :
    endWithDecode R u = endOp (rspOfValue (srcDecode R u.rply)) u := by
  unfold endWithDecode srcDecode fromWire
  cases decodeReg R u.rply <;> rfl

theorem typedFrameDone_callback {mr : ValPort} {u : State} {R : RegDesc} (hop : u.op = .modify ∨ u.op = .modifyReread)
    (hst : u.stage = .frame1) : typedFrameDone mr R u = applyModify mr R u := by
  rcases hop with hop | hop <;> simp [typedFrameDone, hop, hst]

theorem applyModify_of_ok {mr : ValPort} {u : State} {R : RegDesc} {v : RegVal} (hv : decodeReg R u.rply = .ok v) :
    applyModify mr R u = onOk (valOperand R mr) fun v1 => .next { u with val := v1 } := by
  simp [applyModify, fromWire, hv]

theorem applyModify_of_error {mr : ValPort} {u : State} {R : RegDesc} {d : DecodeError}
    (hd : decodeReg R u.rply = .error d) : applyModify mr R u = .next (endOp (.errDriver (.decode d)) u) := by
  simp [applyModify, fromWire, hd]

/-- Settles O39: the count, the hold of a reset, and the end of EXECUTE's frame with either result. -/
theorem holdPhase : Obligations.HoldPhase := by
  refine fun p s hph => ⟨tick_hold_of_ne_zero hph, tick_hold_of_rest hph, fun hcnt hopv hop => ?_⟩
  have hresult : s.holdEnded.HoldsResult (if s.errf then .error s.terr else .ok s.rply) := by
    cases herr : s.errf <;> exact ⟨herr, rfl⟩
  rw [tick_holdEnd hph hcnt hopv, frameDone_execute (u := s.holdEnded) hop hresult,
    apply_ite rspOfExecute]
  rfl

/-- Settles O40: the operation layer asks for the error before it looks at the operation's stage. -/
theorem transportErrorEndsOperation : Obligations.TransportErrorEndsOperation := by
  intro p s hph hcnt hopv herr hop
  rw [tick_holdEnd hph hcnt hopv]
  exact frameDone_typed_of_error hop herr

theorem valOperand_of_no_member {R : RegDesc} {p : ValPort} (hfit : p.codes.toNat < 2 ^ codesWidth R.fields)
    (hbad : validCodes R.fields (unpackCodes R.fields p.codes) = false) : valOperand R p = .error .noSuchMember := by
  simp [valOperand, hfit, hbad]

theorem valOperand_of_wide {R : RegDesc} {p : ValPort} (hwide : 2 ^ codesWidth R.fields ≤ p.codes.toNat) :
    valOperand R p = .error .operandTooWide := by
  simp [valOperand, Nat.not_lt.2 hwide]

/-- Settles O41: the clock is the callback's, on a reply that decodes or not and an answer that is an operand or not. -/
theorem modifyCallback : Obligations.ModifyCallback := by
  intro p s R hph hcnt hopv herr hop hst hR
  have htick : tick p s = applyModify p.modRes R s.holdEnded := by
    rw [tick_holdEnd hph hcnt hopv, frameDone_typed_of_ok (u := s.holdEnded) (.inr (.inr hop)) herr hR,
      typedFrameDone_callback (u := s.holdEnded) hop hst]
  have harg : s.modArg = (decodeReg R s.rply).toOption := by
    simp [State.modArg, hph, hcnt, hopv, herr, hst, hop, regOperand_of_some hR, fromWire]
  rw [htick, harg]
  refine ⟨fun v0 v1 hv0 hv1 => ?_, fun v0 hv0 => ?_, fun d hd => ?_⟩
  · rw [applyModify_of_ok (u := s.holdEnded) hv0, hv1, hv0]
    exact ⟨rfl, rfl⟩
  · rw [applyModify_of_ok (u := s.holdEnded) hv0]
    refine ⟨fun hfit hbad => ?_, fun hwide => ?_⟩
    · rw [valOperand_of_no_member hfit hbad, onOk_error]
    · rw [valOperand_of_wide hwide, onOk_error]
  · rw [applyModify_of_error (u := s.holdEnded) hd, hd]
    exact ⟨rfl, rfl⟩

/-! ## When a result is presented -/

/-- R105 item f: the block is as it was before the operation, chip-select high. -/
structure Released (t : State) : Prop where
  csN : t.csN = true
  phase : t.phase = .idle
  opv : t.opv = false
  stage : t.stage = .none

theorem TickCase.released_of_result {p : Pins} {s t : State} (hc : TickCase p s t) (hinv : SeqInv s)
    (hnone : s.rspDrv = none) (ht : t.rspDrv ≠ none) : Released t := by
  cases hc with
  | writeBad e hph => exact ⟨by simp [hinv.chipSelect, hph, Phase.framed], hph, rfl, rfl⟩
  | holdEnd r hph => exact ⟨by simp [hinv.chipSelect, hph, Phase.framed], rfl, rfl, rfl⟩
  | _ => exact absurd hnone ht

theorem ExecCase.released_of_result {s t : State} (hc : ExecCase s t) (hinv : SeqInv s) (hnone : s.rspDrv = none)
    (ht : t.rspDrv ≠ none) : Released t := by
  cases hc with
  | pure t h => rw [h] at ht; exact absurd hnone ht
  | accept => exact absurd hnone ht
  | framing r hb =>
    obtain ⟨hopv, hph⟩ : s.opv = false ∧ s.phase = .idle := by simpa [State.busy] using hb
    exact ⟨by simp [hinv.chipSelect, hph, Phase.framed], hph, hopv, (hinv.atRest hopv).1⟩

/-- Settles O49: of all transitions and requests, three present a result, and each leaves the block released. -/
theorem resultOnlyAfterChipSelectHigh : Obligations.ResultOnlyAfterChipSelectHigh := by
  intro s t hinv hstep ht
  have clear (a : Option Response) : SeqInv { s.dropPins.clearStrobes with rspPure := a } := hinv.withOutputs _ _ _ _
  have hreleased : Released t := by
    cases (step_case s t hstep).2 with
    | reset => exact absurd rfl ht
    | tick _ _ h => exact (tick_case _ _ _ h).released_of_result (clear none) rfl ht
    | pureTick r _ _ h => exact (tick_case _ _ _ h).released_of_result (clear r) rfl ht
    | exec _ _ _ h => exact h.released_of_result (clear none) rfl ht
  obtain ⟨hcs, hph, hopv, hst⟩ := hreleased
  exact ⟨hcs, hph, hopv, hst, by simp [State.busy, hopv, hph]⟩

/-! ## No time-out -/

/-- A frame waits for the transport, and no listed pin resets or answers (R109). -/
structure Waiting (s : State) : Prop where
  wf : s.cfg.wf = true
  csN : s.csN = false
  phase : s.phase = .send ∨ s.phase = .recv
  pins : ∀ p ∈ s.pins, p.rst = false ∧ (s.phase = .send → p.txDone = false) ∧ (s.phase = .recv → p.rxDone = false)

namespace Waiting

variable {s : State}

/-- The pins beyond the list are quiet, so the coming clock has no reset and no answer either. -/
theorem nextPins (h : Waiting s) : s.nextPins.rst = false ∧ (s.phase = .send → s.nextPins.txDone = false)
    ∧ (s.phase = .recv → s.nextPins.rxDone = false) := by
  cases hp : s.pins with
  | nil => rw [State.nextPins_nil hp]; exact ⟨rfl, fun _ => rfl, fun _ => rfl⟩
  | cons p ps => rw [State.nextPins_cons hp]; exact h.pins p (by simp [hp])

/-- The pins used up and the strobes ended, one of them perhaps raised again. -/
theorem afterEdge (h : Waiting s) (a : Option Response) : Waiting { s.dropPins.clearStrobes with rspPure := a } :=
  ⟨h.wf, h.csN, h.phase, fun p hp => h.pins p (List.mem_of_mem_tail hp)⟩

theorem busy (h : Waiting s) : s.busy = true := by
  rcases h.phase with hph | hph <;> simp [State.busy, hph]

/-- The sequencer waits. -/
theorem tick_eq (h : Waiting s) (a : Option Response) : tick s.nextPins { s.dropPins.clearStrobes with rspPure := a }
    = .next { s.dropPins.clearStrobes with rspPure := a } := by
  obtain ⟨-, htx, hrx⟩ := h.nextPins
  rcases h.phase with hph | hph
  · rw [tick_send (s := { s.dropPins.clearStrobes with rspPure := a }) hph, tickSend_of_wait (htx hph)]
  · rw [tick_recv (s := { s.dropPins.clearStrobes with rspPure := a }) hph, tickRecv_of_wait (hrx hph)]

/-- All that one clock of waiting can do. -/
theorem step_eq (h : Waiting s) {t : State} (ht : step s = .next t) :
    ∃ a, t = { s.dropPins.clearStrobes with rspPure := a } := by
  have hrst := h.nextPins.1
  cases (step_case s t ht).2 with
  | reset hr => simp [hrst] at hr
  | tick _ _ hs => cases (h.tick_eq none).symm.trans hs; exact ⟨none, rfl⟩
  | pureTick r _ _ hs => cases (h.tick_eq r).symm.trans hs; exact ⟨r, rfl⟩
  | exec _ _ hb _ => simp [h.busy] at hb

/-- With no pure operation presented the clock completes. -/
theorem step_next (h : Waiting s) (hq : ∀ q, s.nextPins.req = some q → Request.asksDriver q = true) :
    step s = .next s.dropPins.clearStrobes := by
  have hrst := h.nextPins.1
  have hclear : s.dropPins.clearStrobes.busy = true := h.busy
  have hwait : tick s.nextPins s.dropPins.clearStrobes = .next s.dropPins.clearStrobes := h.tick_eq none
  cases hreq : s.nextPins.req with
  | none => rw [step_of_noRequest h.wf hrst hreq, hwait]
  | some q =>
    simp only [step, clock, State.dropPins_cfg, h.wf, hrst, hreq, if_true, Bool.false_eq_true, if_false,
      clockRequest_of_busy hclear (hq q hreq), hwait]

theorem run_next (h : Waiting s) (hq : ∀ p ∈ s.pins, ∀ q, p.req = some q → Request.asksDriver q = true) (k : Nat) :
    ∃ t, runFor k s = .next t := by
  induction k generalizing s with
  | zero => exact ⟨s, rfl⟩
  | succ k ih =>
    have hnext : step s = .next s.dropPins.clearStrobes := by
      refine h.step_next ?_
      cases hp : s.pins with
      | nil => rw [State.nextPins_nil hp]; intro q hnone; cases hnone
      | cons p ps => rw [State.nextPins_cons hp]; exact hq p (by simp [hp])
    rw [run_succ k s _ hnext]
    exact ih (h.afterEdge none) fun p hp => hq p (List.mem_of_mem_tail hp)

theorem run_frame (h : Waiting s) {k : Nat} {t : State} (ht : runFor k s = .next t) :
    t.phase = s.phase ∧ t.csN = false ∧ t.trace = s.trace ∧ t.cmd = s.cmd
      ∧ t.rspDrv = (if k = 0 then s.rspDrv else none) := by
  induction k generalizing s with
  | zero => cases ht; exact ⟨rfl, h.csN, rfl, rfl, rfl⟩
  | succ k ih =>
    rw [runFor_succ] at ht
    obtain ⟨u, hu, ht⟩ := onNext_next ht
    obtain ⟨a, rfl⟩ := h.step_eq hu
    obtain ⟨hph, hcs, htr, hcmd, hdrv⟩ := ih (h.afterEdge a) ht
    exact ⟨hph, hcs, htr, hcmd, by rw [hdrv]; simp⟩

end Waiting

/-- Settles O43: each clock of waiting leaves the block waiting, by induction on the number of clocks. -/
theorem noTimeout : Obligations.NoTimeout := by
  intro s k hwf hcs hph hpins
  have h : Waiting s := ⟨hwf, hcs, hph, hpins⟩
  exact ⟨fun hq => h.run_next hq k, fun _ => h.run_frame⟩

end Sys2Proof.Machine
end

section
/-! PROOFS. The operations at the level of section 3: one computation after another, and the frames each operation sends
(R114). -/

namespace Sys2Proof.Machine

theorem andThen_of_ok {α β : Type} {x : Ran DriverError α} {a : α} (k : α → Ran DriverError β) (h : x.2 = .ok a) :
    andThen x k = (x.1 ++ (k a).1, (k a).2) := by
  simp [andThen, h]

theorem andThen_of_error {α β : Type} {x : Ran DriverError α} {e : DriverError} (k : α → Ran DriverError β)
    (h : x.2 = .error e) : andThen x k = (x.1, .error e) := by
  simp [andThen, h]

theorem andThen_assoc {α β γ : Type} (x : Ran DriverError α) (k : α → Ran DriverError β) (g : β → Ran DriverError γ) :
    andThen (andThen x k) g = andThen x fun a => andThen (k a) g := by
  cases hx : x.2 with
  | error e => rw [andThen_of_error _ hx, andThen_of_error _ hx, andThen_of_error _ rfl]
  | ok a =>
    rw [andThen_of_ok _ hx, andThen_of_ok _ hx]
    cases hk : (k a).2 with
    | error e => rw [andThen_of_error _ rfl, andThen_of_error _ hk]
    | ok b => rw [andThen_of_ok _ rfl, andThen_of_ok _ hk, List.append_assoc]

/-- A computation followed by one without events. -/
theorem andThen_silent_fst {α β : Type} (x : Ran DriverError α) (k : α → Except DriverError β) :
    (andThen x fun a => ([], k a)).1 = x.1 := by
  cases hx : x.2 with
  | error e => rw [andThen_of_error _ hx]
  | ok a => rw [andThen_of_ok _ hx, List.append_nil]

/-- One frame inside a typed operation (R110, R111). -/
def srcFrame (p : Params) (c : CmdWord) (a : FrameAns) : Ran DriverError Word :=
  ((srcExecute p c a).1, asDriver (srcExecute p c a).2)

section Source

variable {p : Params} {R : RegDesc} {v : RegVal} {a : FrameAns}

theorem srcRead_eq : srcRead p R a = andThen (srcFrame p (makeRead R.address) a) fun w => ([], srcDecode R w) := rfl

theorem srcWrite_of_ok {c : CmdWord} (h : makeWrite R.address (encodeReg R v) = .ok c) :
    srcWrite p R v a = srcFrame p c a := by
  simp [srcWrite, h, srcFrame]

theorem srcWrite_of_error {e : FramingError} (h : makeWrite R.address (encodeReg R v) = .error e) :
    srcWrite p R v a = ([], .error (.framing e)) := by
  simp [srcWrite, h]

theorem asDriver_ne_framing {α : Type} (r : Except Nat α) (e : FramingError) : asDriver r ≠ .error (.framing e) := by
  cases r <;> simp [asDriver]

theorem srcFrame_of_ok {c : CmdWord} {w : Word} (h : (srcExecute p c a).2 = .ok w) : (srcFrame p c a).2 = .ok w := by
  simp [srcFrame, h, asDriver]

theorem srcFrame_of_error {c : CmdWord} {e : Nat} (h : (srcExecute p c a).2 = .error e) :
    (srcFrame p c a).2 = .error (.transport e) := by
  simp [srcFrame, h, asDriver]

/-- The result of READ is the decode of its frame's reply (R110). -/
theorem srcRead_snd : (srcRead p R a).2 = (asDriver (srcExecute p (makeRead R.address) a).2).bind (srcDecode R) := by
  rw [srcRead_eq]
  cases h : (srcExecute p (makeRead R.address) a).2 with
  | error e => rw [andThen_of_error _ (srcFrame_of_error h)]; rfl
  | ok w => rw [andThen_of_ok _ (srcFrame_of_ok h)]; rfl

theorem srcRead_fst : (srcRead p R a).1 = (srcExecute p (makeRead R.address) a).1 := by
  rw [srcRead_eq, andThen_silent_fst]
  rfl

/-- A frame's result is the transport's reply. -/
theorem recv_of_srcExecute_ok {c : CmdWord} {w : Word} (h : (srcExecute p c a).2 = .ok w) : a.recv = .ok w := by
  obtain ⟨sa, ra⟩ := a
  rw [srcExecute_eq] at h
  cases sa with
  | err e => cases h
  | ok =>
    cases ra with
    | err e => cases h
    | ok w' => cases h; rfl

end Source

/-! ## The frames of an operation -/

theorem sentWords_append (es fs : List Event) : sentWords (es ++ fs) = sentWords es ++ sentWords fs := by
  induction es with
  | nil => rfl
  | cons e es ih => cases e <;> simp [sentWords, ih]

theorem sentWords_srcExecute (p : Params) (c : CmdWord) (a : FrameAns) :
    sentWords (srcExecute p c a).1 = [toWire c] := by
  obtain ⟨sa, ra⟩ := a
  rw [srcExecute_eq]
  cases sa <;> rfl

theorem sentWords_srcRead (p : Params) (R : RegDesc) (a : FrameAns) :
    sentWords (srcRead p R a).1 = [toWire (makeRead R.address)] := by
  rw [srcRead_fst, sentWords_srcExecute]

theorem sentWords_srcWrite {p : Params} {R : RegDesc} {v : RegVal} {a : FrameAns} {u : CmdWord}
    (h : makeWrite R.address (encodeReg R v) = .ok u) : sentWords (srcWrite p R v a).1 = [toWire u] := by
  rw [srcWrite_of_ok h, srcFrame, sentWords_srcExecute]

/-- A framing error of WRITE comes before any event (R111). -/
theorem srcWrite_fst_of_framing {p : Params} {R : RegDesc} {v : RegVal} {a : FrameAns} {e : FramingError}
    (h : (srcWrite p R v a).2 = .error (.framing e)) : (srcWrite p R v a).1 = [] := by
  cases hc : makeWrite R.address (encodeReg R v) with
  | error e' => rw [srcWrite_of_error hc]
  | ok c => rw [srcWrite_of_ok hc] at h; exact absurd h (asDriver_ne_framing _ e)

/-- Settles O58: the frames of one computation after another are the first's and, if it succeeded, the second's. -/
theorem framesOfOperations : Obligations.FramesOfOperations := by
  intro p R c v f a1 a2 a3
  have hread := sentWords_srcRead p R a1
  refine ⟨sentWords_srcExecute p c a1, hread, fun e => srcWrite_fst_of_framing, fun u => sentWords_srcWrite,
    fun e he => ?_, fun v0 e hv0 he => ?_, fun v0 u hv0 hu => ⟨?_, fun e he => ?_, fun w hw => ?_⟩⟩
  · rw [srcModify, srcModifyReread, andThen_of_error _ he, andThen_of_error _ he]
    exact ⟨hread, hread⟩
  · rw [srcModify, srcModifyReread, andThen_of_ok _ hv0, andThen_of_ok _ hv0, srcWrite_of_error he,
      andThen_of_error _ rfl, andThen_of_error _ rfl, List.append_nil]
    exact ⟨hread, hread⟩
  · rw [srcModify, andThen_of_ok _ hv0, andThen_silent_fst, sentWords_append, hread, sentWords_srcWrite hu]
    rfl
  · rw [srcModifyReread, andThen_of_ok _ hv0, andThen_of_error _ he, sentWords_append, hread, sentWords_srcWrite hu]
    rfl
  · rw [srcModifyReread, andThen_of_ok _ hv0, andThen_of_ok _ hw, sentWords_append, sentWords_append, hread,
      sentWords_srcWrite hu, sentWords_srcRead]
    rfl

end Sys2Proof.Machine
end

section
/-! PROOFS. The clocked block does what section 3 says: one frame from its start to the clock that hands its result over
(`InFlight.frame`), and operations of several frames as one computation after another (`Delivers`). -/

namespace Sys2Proof.Machine

/-! ## One frame -/

/-- Operation `o` on register `r` is in flight and no response stands on the ports; the pins `ps` are to come. -/
structure InFlight (p : Params) (o : HostOp) (r : RegIdx) (ps : List Pins) (s : State) : Prop where
  cfg : s.cfg = p
  opv : s.opv = true
  op : s.op = o
  reg : s.reg = r
  rspPure : s.rspPure = none
  rspDrv : s.rspDrv = none
  pins : s.pins = ps

/-- Frame `st` of the operation has ended (R107). -/
structure Handed (p : Params) (o : HostOp) (r : RegIdx) (st : Stage) (ps : List Pins) (s : State) : Prop
    extends InFlight p o r ps s where
  stage : s.stage = st
  phase : s.phase = .idle
  csN : s.csN = true

/-- The clocks of one frame, from the clock after its start: its events are those of R100, and its result stands in the
latches. -/
theorem InFlight.frame {p : Params} {o : HostOp} {r : RegIdx} {mr : ValPort} {x : FrameIn} {rest : List Pins}
    {s : State} (h : InFlight p o r (framePins p mr x ++ rest) s) (hwf : p.wf = true) (hfits : x.ans.fits p)
    (st : Stage) (c : CmdWord) :
    ∃ u, runFor (framePins p mr x).length (startFrame st c s) = frameDone mr u ∧ Handed p o r st rest u
      ∧ u.trace = s.trace ++ (srcExecute p c x.ans).1 ∧ u.HoldsResult (srcExecute p c x.ans).2 := by
  obtain ⟨rfl, hopv, rfl, rfl, hpure, hdrv, hpins⟩ := h
  obtain ⟨u, hrun, hu⟩ :=
    frame_over (startFrame st c s) x mr rest hwf hpure hdrv hopv rfl rfl rfl hfits hpins
  refine ⟨u, hrun, ⟨⟨hu.cfg, hu.opv.trans hopv, hu.op, hu.reg, hu.rspPure, hu.rspDrv, hu.pins⟩, hu.stage, hu.phase,
    hu.csN⟩, ?_, ?_⟩
  · simp [hu.trace, srcExecute_eq]
  · rw [srcExecute_eq]
    cases hres : frameResult x.ans with
    | ok w => exact hu.okRes w hres
    | error e => exact hu.errRes e hres

/-- The block after the operation: the events so far, the result presented, chip-select high, ready again. -/
structure Finished (tr : List Event) (rsp : Response) (t : State) : Prop where
  trace : t.trace = tr
  rspDrv : t.rspDrv = some rsp
  busy : t.busy = false
  csN : t.csN = true

/-- An operation ends where a frame has ended. -/
theorem finished_endOp {u : State} (rsp : Response) (hph : u.phase = .idle) (hcs : u.csN = true) :
    Finished u.trace rsp (endOp rsp u) :=
  ⟨rfl, rfl, by simp [State.busy, hph], hcs⟩

/-! ## Acceptance -/

theorem step_of_reqPins {s : State} {i : Instr} {ps : List Pins} (hwf : s.cfg.wf = true) (hb : s.busy = false)
    (hpins : s.pins = reqPins i :: ps) (hi : i.wf = true) (hcore : i.coreForm = i) {t : State}
    (hexec : exec i s.dropPins.clearStrobes = .next t) : step s = .next t := by
  have hnext := State.nextPins_cons hpins
  have hdec : decodeRequest (encode i) = .ok i := (decodeRequest_encode i hi).trans (by rw [hcore])
  rw [step_of_request hwf (by rw [hnext]; rfl) (by rw [hnext]; rfl) hdec, hexec]
  simp [onNext, hb]

/-- `S.OPV`, `S.OP` and `S.REG` are loaded (R108). -/
def loadDriver (o : HostOp) (r : RegIdx) (s : State) : State := { s with opv := true, op := o, reg := r }

theorem acceptDriver_eq (o : HostOp) (r : RegIdx) (c : CmdWord) (s : State) :
    acceptDriver o r c s = startFrame .frame1 c (loadDriver o r s) := rfl

theorem inFlight_loadDriver {s : State} {q : Pins} {ps : List Pins} (hpins : s.pins = q :: ps) (o : HostOp)
    (r : RegIdx) : InFlight s.cfg o r ps (loadDriver o r s.dropPins.clearStrobes) :=
  ⟨rfl, rfl, rfl, rfl, rfl, rfl, by simp [loadDriver, hpins]⟩

/-- An operation of one frame, whose result the operation layer makes of the frame's. -/
theorem oneFrame_run {s : State} {o : HostOp} {r : RegIdx} {c : CmdWord} {q : Pins} {mr : ValPort} {x : FrameIn}
    {rest : List Pins} {rsp : Response} (hwf : s.cfg.wf = true) (hfits : x.ans.fits s.cfg)
    (hpins : s.pins = q :: (framePins s.cfg mr x ++ rest))
    (hstep : step s = .next (acceptDriver o r c s.dropPins.clearStrobes))
    (hdone : ∀ u, Handed s.cfg o r .frame1 rest u → u.HoldsResult (srcExecute s.cfg c x.ans).2 →
      frameDone mr u = .next (endOp rsp u)) :
    ∃ t, runFor ((framePins s.cfg mr x).length + 1) s = .next t
      ∧ Finished (s.trace ++ (srcExecute s.cfg c x.ans).1) rsp t ∧ t.pins = rest := by
  obtain ⟨u, hrun, hu, htrace, hres⟩ := (inFlight_loadDriver hpins o r).frame hwf hfits .frame1 c
  refine ⟨endOp rsp u, ?_, ?_, hu.pins⟩
  · rw [run_succ _ _ _ hstep, acceptDriver_eq, hrun, hdone u hu hres]
  · have hend := finished_endOp rsp hu.phase hu.csN
    rw [htrace] at hend
    exact hend

/-! ## Operations of one frame -/

/-- Settles O53: all three present the EXECUTE of `c`, whose one frame gives the result. -/
theorem executeRefinesSource : Obligations.ExecuteRefinesSource := by
  intro i c s x mr rest hi hc hwf hb hfits hpins
  have haccept : exec i s.dropPins.clearStrobes = .next (acceptDriver .execute s.reg c s.dropPins.clearStrobes) ∧
      i.wf = true ∧ i.coreForm = i := by
    have hready := acceptExecute_of_constructible (s := s.dropPins.clearStrobes) hb hc
    rcases hi with rfl | ⟨a, rfl, rfl⟩ | ⟨a, d, rfl, rfl⟩
    · exact ⟨hready, hc, rfl⟩
    · exact ⟨hready, rfl, rfl⟩
    · exact ⟨hready, rfl, rfl⟩
  obtain ⟨hexec, hwfi, hcore⟩ := haccept
  obtain ⟨t, hrun, ht, hrest⟩ := oneFrame_run hwf hfits hpins (step_of_reqPins hwf hb hpins hwfi hcore hexec)
    fun u hu hres => frameDone_execute hu.op hres
  exact ⟨t, by rw [Nat.add_comm, hrun], ht.trace, ht.rspDrv, ht.busy, ht.csN, hrest⟩

/-- The last frame of an operation whose result is the decode of the reply (R110). -/
theorem frameDone_decodes {mr : ValPort} {u : State} {R : RegDesc} {y : Except Nat Word} (hop : IsTyped u.op)
    (hR : u.cfg.reg? u.reg = some R) (hlast : typedFrameDone mr R u = .next (endWithDecode R u))
    (hy : u.HoldsResult y) : frameDone mr u = .next (endOp (rspOfValue ((asDriver y).bind (srcDecode R))) u) := by
  cases y with
  | ok w =>
    obtain ⟨herr, rfl⟩ := hy
    rw [frameDone_typed_of_ok hop herr hR, hlast, endWithDecode_eq_srcDecode]
    rfl
  | error e =>
    obtain ⟨herr, rfl⟩ := hy
    rw [frameDone_typed_of_error hop herr]
    rfl

theorem typedFrameDone_read {mr : ValPort} {u : State} {R : RegDesc} (hop : u.op = .read) (hst : u.stage = .frame1) :
    typedFrameDone mr R u = .next (endWithDecode R u) := by
  simp [typedFrameDone, hop, hst]

/-- Settles O54: the one frame is the register's read, and its reply is decoded. -/
theorem readRefinesSource : Obligations.ReadRefinesSource := by
  intro r R s x mr rest hwf hR hb hfits hpins
  have hexec := acceptRead_of_some (s := s.dropPins.clearStrobes) (o := .read) hb hR
  obtain ⟨t, hrun, ht, hrest⟩ := oneFrame_run (rsp := rspOfValue (srcRead s.cfg R x.ans).2) hwf hfits hpins
    (step_of_reqPins hwf hb hpins rfl rfl hexec) fun u hu hres => by
      rw [srcRead_snd]
      exact frameDone_decodes (.inl hu.op) (by rw [hu.cfg, hu.reg, hR]) (typedFrameDone_read hu.op hu.stage) hres
  exact ⟨t, by rw [Nat.add_comm, hrun], by rw [ht.trace, srcRead_fst], ht.rspDrv, ht.busy, ht.csN, hrest⟩

/-- The end of WRITE's frame: the reply unmodified, or the error wrapped (R111, R145). -/
theorem frameDone_write {mr : ValPort} {u : State} {R : RegDesc} {y : Except Nat Word} (hop : u.op = .write)
    (hst : u.stage = .frame1) (hR : u.cfg.reg? u.reg = some R) (hy : u.HoldsResult y) :
    frameDone mr u = .next (endOp (rspOfWord (asDriver y)) u) := by
  have htyped : IsTyped u.op := .inr (.inl hop)
  cases y with
  | ok w =>
    obtain ⟨herr, rfl⟩ := hy
    rw [frameDone_typed_of_ok htyped herr hR]
    simp [typedFrameDone, hop, hst, asDriver, rspOfWord, fromWire]
  | error e =>
    obtain ⟨herr, rfl⟩ := hy
    rw [frameDone_typed_of_error htyped herr]
    rfl

/-- Settles O55: a framing failure ends the accepting clock, any other WRITE is one frame. -/
theorem writeRefinesSource : Obligations.WriteRefinesSource := by
  intro r R p v s x mr rest hwf hR hv hb hcs hfits hpins
  cases hc : makeWrite R.address (encodeReg R v) with
  | error e =>
    have hexec := exec_write_of_error (s := s.dropPins.clearStrobes) hb hR hv hc
    refine ⟨0, _, run_succ 0 s _ (step_of_reqPins hwf hb hpins rfl rfl hexec), .inl rfl, ?_, ?_, hb, hcs⟩
    · simp [srcWrite_of_error hc]
    · rw [srcWrite_of_error hc]; rfl
  | ok c =>
    have hexec := exec_write_of_ok (s := s.dropPins.clearStrobes) hb hR hv hc
    obtain ⟨t, hrun, ht, -⟩ := oneFrame_run hwf hfits hpins (step_of_reqPins hwf hb hpins rfl rfl hexec)
      fun u hu hres => frameDone_write hu.op hu.stage (by rw [hu.cfg, hu.reg, hR]) hres
    rw [srcWrite_of_ok hc]
    exact ⟨_, t, hrun, .inr rfl, ht.trace, ht.rspDrv, ht.busy, ht.csN⟩

/-! ## Operations of several frames -/

section SeveralFrames

variable {mr : ValPort} {u : State} {R : RegDesc}

theorem typedFrameDone_modify_frame2 (hop : u.op = .modify) (hst : u.stage = .frame2) :
    typedFrameDone mr R u = .next (endWithDecode R u) := by
  simp [typedFrameDone, hop, hst]

/-- The reply of MODIFY_REREAD's write is dropped undecoded (R113). -/
theorem typedFrameDone_modifyReread_frame2 (hop : u.op = .modifyReread) (hst : u.stage = .frame2) :
    typedFrameDone mr R u = .next u := by
  simp [typedFrameDone, hop, hst]

theorem typedFrameDone_modifyReread_frame3 (hop : u.op = .modifyReread) (hst : u.stage = .frame3) :
    typedFrameDone mr R u = .next (endWithDecode R u) := by
  simp [typedFrameDone, hop, hst]

end SeveralFrames

/-- Within `n` clocks of `s` the computation `x` has run: its events follow `tr` and its result is presented. -/
def Delivers (n : Nat) (s : State) (tr : List Event) (x : Ran DriverError RegVal) : Prop :=
  ∃ k t, k ≤ n ∧ runFor k s = .next t ∧ Finished (tr ++ x.1) (rspOfValue x.2) t

theorem Delivers.after {m n : Nat} {s u : State} {tr : List Event} {x : Ran DriverError RegVal} (h : Delivers n u tr x)
    (hrun : runFor m s = .next u) : Delivers (m + n) s tr x := by
  obtain ⟨k, t, hk, hkrun, ht⟩ := h
  exact ⟨m + k, t, Nat.add_le_add_left hk m, by rw [run_add _ _ _ _ hrun, hkrun], ht⟩

/-- Events that came before the computation are those of a longer one. -/
theorem Delivers.withEvents {n : Nat} {s : State} {tr es : List Event} {x : Ran DriverError RegVal}
    (h : Delivers n s (tr ++ es) x) : Delivers n s tr (es ++ x.1, x.2) := by
  rw [Delivers, List.append_assoc] at h
  exact h

/-- Frame `st` has ended well: whatever the reply, the operation layer goes on to a state that delivers the rest `k` of the
operation within `n` clocks. -/
def ReplyDelivers (p : Params) (o : HostOp) (r : RegIdx) (R : RegDesc) (st : Stage) (mr : ValPort) (x : FrameIn)
    (rest : List Pins) (n : Nat) (k : Word → Ran DriverError RegVal) : Prop :=
  ∀ u, x.ans.recv = .ok u.rply → Handed p o r st rest u →
    ∃ v, typedFrameDone mr R u = .next v ∧ Delivers n v u.trace (k u.rply)

theorem delivers_of_endOp {n : Nat} {u : State} {y : Except DriverError RegVal} (hph : u.phase = .idle)
    (hcs : u.csN = true) : Delivers n (endOp (rspOfValue y) u) u.trace ([], y) :=
  ⟨0, _, Nat.zero_le n, rfl, by rw [List.append_nil]; exact finished_endOp _ hph hcs⟩

namespace Handed

variable {p : Params} {o : HostOp} {r : RegIdx} {st : Stage} {ps : List Pins} {u : State}

/-- The last frame of an operation, its reply decoded (R110, R112, R113). -/
theorem delivers_decode {mr : ValPort} {R : RegDesc} (h : Handed p o r st ps u)
    (hlast : typedFrameDone mr R u = .next (endWithDecode R u)) :
    ∃ v, typedFrameDone mr R u = .next v ∧ Delivers 0 v u.trace ([], srcDecode R u.rply) := by
  refine ⟨_, hlast, ?_⟩
  rw [endWithDecode_eq_srcDecode]
  exact delivers_of_endOp h.phase h.csN

/-- The clock in `IDLE` between two frames (log entry 13). -/
theorem step_idle (h : Handed p o r st (Pins.quiet :: ps) u) (hwf : p.wf = true) :
    step u = nextFrame { u with pins := ps } := by
  rw [noreq_step u Pins.quiet ps (by rw [h.cfg]; exact hwf) h.pins rfl rfl h.rspPure h.rspDrv]
  simp [tick, h.phase, h.opv]

theorem inFlight_tail {q : Pins} (h : Handed p o r st (q :: ps) u) : InFlight p o r ps { u with pins := ps } :=
  ⟨h.cfg, h.opv, h.op, h.reg, h.rspPure, h.rspDrv, rfl⟩

/-- The callback's answer is latched (R112). -/
theorem withVal (h : Handed p o r st ps u) (v : RegVal) : Handed p o r st ps { u with val := v } :=
  ⟨⟨h.cfg, h.opv, h.op, h.reg, h.rspPure, h.rspDrv, h.pins⟩, h.stage, h.phase, h.csN⟩

end Handed

section Frames

variable {p : Params} (hwf : p.wf = true) {r : RegIdx} {R : RegDesc} (hR : p.reg? r = some R)
include hwf hR

/-- One frame and then, unless it failed, what the operation layer does with the reply. -/
theorem InFlight.delivers_frame {o : HostOp} {mr : ValPort} {x : FrameIn} {rest : List Pins} {s : State}
    (h : InFlight p o r (framePins p mr x ++ rest) s) (hfits : x.ans.fits p) (hop : IsTyped o) (st : Stage)
    (c : CmdWord) {n : Nat} {k : Word → Ran DriverError RegVal} (hk : ReplyDelivers p o r R st mr x rest n k) :
    Delivers ((framePins p mr x).length + n) (startFrame st c s) s.trace (andThen (srcFrame p c x.ans) k) := by
  obtain ⟨u, hrun, hu, htrace, hres⟩ := h.frame hwf hfits st c
  have hop' : IsTyped u.op := by rw [hu.op]; exact hop
  cases hx : (srcExecute p c x.ans).2 with
  | error e =>
    rw [hx] at hres
    obtain ⟨herr, rfl⟩ := hres
    rw [frameDone_typed_of_error hop' herr] at hrun
    have hend := (delivers_of_endOp (n := n) (y := .error (.transport u.terr)) hu.phase hu.csN).after hrun
    rw [htrace] at hend
    rw [andThen_of_error _ (srcFrame_of_error hx), ← List.append_nil (srcFrame p c x.ans).1]
    exact hend.withEvents
  | ok w =>
    rw [hx] at hres
    obtain ⟨herr, rfl⟩ := hres
    obtain ⟨v, hdone, hv⟩ := hk u (recv_of_srcExecute_ok hx) hu
    rw [frameDone_typed_of_ok hop' herr (by rw [hu.cfg, hu.reg, hR]), hdone] at hrun
    rw [htrace] at hv
    rw [andThen_of_ok _ (srcFrame_of_ok hx)]
    exact (hv.after hrun).withEvents

theorem Handed.step_write_of_ok {o : HostOp} {ps : List Pins} {u : State}
    (h : Handed p o r .frame1 (Pins.quiet :: ps) u) (hop : o = .modify ∨ o = .modifyReread) {c : CmdWord}
    (hc : makeWrite R.address (encodeReg R u.val) = .ok c) :
    step u = .next (startFrame .frame2 c { u with pins := ps }) := by
  rw [h.step_idle hwf]
  rcases hop with rfl | rfl <;> simp [nextFrame, h.cfg, h.reg, regOperand_of_some hR, h.op, h.stage, hc]

theorem Handed.step_write_of_error {o : HostOp} {ps : List Pins} {u : State}
    (h : Handed p o r .frame1 (Pins.quiet :: ps) u) (hop : o = .modify ∨ o = .modifyReread) {e : FramingError}
    (he : makeWrite R.address (encodeReg R u.val) = .error e) :
    step u = .next (endOp (.errDriver (.framing e)) { u with pins := ps }) := by
  rw [h.step_idle hwf]
  rcases hop with rfl | rfl <;> simp [nextFrame, h.cfg, h.reg, regOperand_of_some hR, h.op, h.stage, he]

theorem Handed.step_reread {ps : List Pins} {u : State} (h : Handed p .modifyReread r .frame2 (Pins.quiet :: ps) u) :
    step u = .next (startFrame .frame3 (makeRead R.address) { u with pins := ps }) := by
  rw [h.step_idle hwf]
  simp [nextFrame, h.cfg, h.reg, regOperand_of_some hR, h.op, h.stage]

/-- The write of MODIFY and MODIFY_REREAD: a framing error in the clock between the frames, or the second frame
(R112). -/
theorem Handed.delivers_write {o : HostOp} {mr : ValPort} {x : FrameIn} {rest : List Pins} {u : State}
    (h : Handed p o r .frame1 (Pins.quiet :: (framePins p mr x ++ rest)) u) (hfits : x.ans.fits p)
    (hop : o = .modify ∨ o = .modifyReread) {n : Nat} {k : Word → Ran DriverError RegVal}
    (hk : ReplyDelivers p o r R .frame2 mr x rest n k) :
    Delivers (1 + ((framePins p mr x).length + n)) u u.trace (andThen (srcWrite p R u.val x.ans) k) := by
  cases hc : makeWrite R.address (encodeReg R u.val) with
  | error e =>
    rw [srcWrite_of_error hc, andThen_of_error _ rfl]
    refine Delivers.after ?_ (run_succ 0 u _ (h.step_write_of_error hwf hR hop hc))
    exact delivers_of_endOp (y := .error (.framing e)) (u := { u with pins := framePins p mr x ++ rest }) h.phase h.csN
  | ok c =>
    rw [srcWrite_of_ok hc]
    exact (h.inFlight_tail.delivers_frame hwf hR hfits (.inr (.inr hop)) .frame2 c hk).after
      (run_succ 0 u _ (h.step_write_of_ok hwf hR hop hc))

/-- The last read of MODIFY_REREAD (R113). -/
theorem Handed.delivers_reread {mr : ValPort} {x : FrameIn} {rest : List Pins} {u : State}
    (h : Handed p .modifyReread r .frame2 (Pins.quiet :: (framePins p mr x ++ rest)) u) (hfits : x.ans.fits p) :
    Delivers (1 + ((framePins p mr x).length + 0)) u u.trace (srcRead p R x.ans) :=
  (h.inFlight_tail.delivers_frame hwf hR hfits (.inr (.inr (.inr rfl))) .frame3 (makeRead R.address) fun _ _ hu =>
    hu.delivers_decode (typedFrameDone_modifyReread_frame3 hu.op hu.stage)).after
      (run_succ 0 u _ (h.step_reread hwf hR))

/-- The read frame of MODIFY and MODIFY_REREAD with the callback answering `f`, and the write after it (R112, R64). -/
theorem InFlight.delivers_readWrite {o : HostOp} {mr1 mr2 : ValPort} {x1 x2 : FrameIn} {rest : List Pins} {s : State}
    (h : InFlight p o r (framePins p mr1 x1 ++ Pins.quiet :: (framePins p mr2 x2 ++ rest)) s)
    (hfits1 : x1.ans.fits p) (hfits2 : x2.ans.fits p) (hop : o = .modify ∨ o = .modifyReread) {f : RegVal → RegVal}
    (hf : ∀ w v0, x1.ans.recv = .ok w → decodeReg R w = .ok v0 → valOperand R mr1 = .ok (f v0))
    {n : Nat} {k : Word → Ran DriverError RegVal} (hk : ReplyDelivers p o r R .frame2 mr2 x2 rest n k) :
    Delivers ((framePins p mr1 x1).length + (1 + ((framePins p mr2 x2).length + n)))
      (startFrame .frame1 (makeRead R.address) s) s.trace
      (andThen (srcRead p R x1.ans) fun v0 => andThen (srcWrite p R (f v0) x2.ans) k) := by
  rw [srcRead_eq, andThen_assoc]
  refine h.delivers_frame hwf hR hfits1 (.inr (.inr hop)) .frame1 _ fun u hrecv hu => ?_
  rw [typedFrameDone_callback (by rw [hu.op]; exact hop) hu.stage]
  cases hdec : decodeReg R u.rply with
  | error d =>
    have hsrc : srcDecode R u.rply = .error (.decode d) := by simp [srcDecode, hdec]
    rw [hsrc, andThen_of_error _ rfl]
    exact ⟨_, applyModify_of_error hdec, delivers_of_endOp (y := .error (.decode d)) hu.phase hu.csN⟩
  | ok v0 =>
    have hsrc : srcDecode R u.rply = .ok v0 := by simp [srcDecode, hdec]
    rw [hsrc, andThen_of_ok _ rfl]
    refine ⟨{ u with val := f v0 }, ?_, (hu.withVal (f v0)).delivers_write hwf hR hfits2 hop hk⟩
    rw [applyModify_of_ok hdec, hf _ v0 hrecv hdec, onOk_ok]

end Frames

/-- Settles O56: the read frame, the write frame, and the decode of the write's reply. -/
theorem modifyRefinesSource : Obligations.ModifyRefinesSource := by
  intro r R f s x1 x2 mr1 mr2 rest hwf hR hb hfits1 hfits2 hf hpins
  rw [List.append_assoc, List.cons_append, List.cons_append] at hpins
  have hexec := acceptRead_of_some (s := s.dropPins.clearStrobes) (o := .modify) hb hR
  have hstep := step_of_reqPins (i := .modify r) hwf hb hpins rfl rfl hexec
  have hframes := (inFlight_loadDriver hpins .modify r).delivers_readWrite hwf hR hfits1 hfits2 (.inl rfl) hf
    (k := fun w => ([], srcDecode R w)) fun u _ hu =>
      hu.delivers_decode (typedFrameDone_modify_frame2 hu.op hu.stage)
  obtain ⟨k, t, hk, hrun, ht⟩ := hframes.after (run_succ 0 s _ hstep)
  exact ⟨k, t, hrun, by omega, ht.trace, ht.rspDrv, ht.busy, ht.csN⟩

/-- Settles O57: the read frame, the write frame whose reply is dropped, and the last read frame. -/
theorem modifyRereadRefinesSource : Obligations.ModifyRereadRefinesSource := by
  intro r R f s x1 x2 x3 mr1 mr2 mr3 rest hwf hopt hR hb hfits1 hfits2 hfits3 hf hpins
  rw [List.append_assoc, List.append_assoc, List.cons_append, List.cons_append, List.cons_append] at hpins
  have hexec := (exec_modifyReread_of_built (r := r) (s := s.dropPins.clearStrobes) hopt).trans
    (acceptRead_of_some (s := s.dropPins.clearStrobes) hb hR)
  have hstep := step_of_reqPins (i := .modifyReread r) hwf hb hpins rfl rfl hexec
  have hframes := (inFlight_loadDriver hpins .modifyReread r).delivers_readWrite hwf hR hfits1 hfits2 (.inr rfl) hf
    (k := fun _ => srcRead s.cfg R x3.ans) fun u _ hu =>
      ⟨u, typedFrameDone_modifyReread_frame2 hu.op hu.stage, hu.delivers_reread hwf hR hfits3⟩
  obtain ⟨k, t, hk, hrun, ht⟩ := hframes.after (run_succ 0 s _ hstep)
  exact ⟨k, t, hrun, by omega, ht.trace, ht.rspDrv, ht.busy, ht.csN⟩

end Sys2Proof.Machine
end

section
/-! PROOFS. Reset and power-up (R140, R141), and a reply that makes a register unwritable (R148). -/

namespace Sys2Proof.Machine

/-! ## Reset -/

theorem step_of_rst {s : State} (hwf : s.cfg.wf = true) (hrst : s.nextPins.rst = true) :
    step s = .next (resetState s.dropPins) := by
  simp [step, clock, hwf, hrst]

/-- Settles O32: the clock is the reset, whose values do not depend on the state or the other pins. -/
theorem resetEdge : Obligations.ResetEdge := by
  intro s p ps hwf hpins hrst
  have hpinsLeft : (resetState s.dropPins).pins = ps := by simp [resetState, hpins]
  exact ⟨_, step_of_rst hwf (by rw [State.nextPins_cons hpins, hrst]),
    rfl, rfl, rfl, rfl, rfl, rfl, rfl, rfl, rfl, rfl, rfl, rfl, hpinsLeft, rfl⟩

/-! ## The hold after a reset -/

theorem tick_idle_of_rest {p : Pins} {s : State} (hph : s.phase = .idle) (hopv : s.opv = false) :
    tick p s = .next s := by
  simp [tick, hph, hopv]

/-- `k` clocks into a hold that belongs to no operation, with no pin listed: the count runs down, then the block
rests. -/
def State.heldFor (k : Nat) (s : State) : State :=
  { s with
    phase := if k ≤ s.cnt then .hold else .idle
    cnt := s.cnt - k
    pins := []
    rspPure := none
    rspDrv := none }

section Hold

variable {s : State} (hopv : s.opv = false)
include hopv

theorem State.busy_heldFor (k : Nat) : (s.heldFor k).busy = true ↔ k ≤ s.cnt := by
  simp [State.busy_iff, State.heldFor, hopv]

/-- One more clock of the sequencer: the count, its end, or rest. -/
theorem tick_heldFor (p : Pins) (k : Nat) : tick p (s.heldFor k) = .next (s.heldFor (k + 1)) := by
  rcases Nat.lt_trichotomy k s.cnt with hlt | heq | hgt
  · have hph : (s.heldFor k).phase = .hold := if_pos hlt.le
    rw [tick_hold_of_ne_zero hph (Nat.sub_ne_zero_of_lt hlt)]
    simp [State.heldFor, hlt, hlt.le, Nat.sub_add_eq]
  · have hph : (s.heldFor k).phase = .hold := if_pos heq.le
    rw [tick_hold_of_rest hph (by simp [State.heldFor, heq]) hopv]
    simp [State.heldFor, heq]
  · have hph : (s.heldFor k).phase = .idle := if_neg hgt.not_ge
    have hrest : s.heldFor k = s.heldFor (k + 1) := by
      simp [State.heldFor, hgt.not_ge, (Nat.lt_succ_of_lt hgt).not_ge, Nat.sub_eq_zero_of_le, hgt.le, Nat.le_succ_of_le]
    rw [tick_idle_of_rest hph hopv, ← hrest]

variable (hwf : s.cfg.wf = true)
include hwf

theorem step_heldFor (k : Nat) : step (s.heldFor k) = .next (s.heldFor (k + 1)) :=
  (step_of_noRequest (s := s.heldFor k) hwf rfl rfl).trans (tick_heldFor hopv _ k)

/-- The clocks of a hold that nothing interrupts; the first of them ends the strobes. -/
theorem run_heldFor (hph : s.phase = .hold) (hpins : s.pins = []) (k : Nat) :
    runFor (k + 1) s = .next (s.heldFor (k + 1)) := by
  induction k with
  | zero =>
    have hnext := State.nextPins_nil hpins
    have hstart : s.dropPins.clearStrobes = s.heldFor 0 := by
      simp [State.dropPins_clearStrobes, State.heldFor, hph, hpins]
    rw [run_last 0 s s (run_zero s), step_of_noRequest hwf (by rw [hnext]; rfl) (by rw [hnext]; rfl), hstart,
      tick_heldFor hopv]
  | succ k ih => rw [run_last _ _ _ ih, step_heldFor hopv hwf]

end Hold

/-- Settles O34: the state after `k + 1` clocks of the hold is `heldFor`, which is busy while the count lasts. -/
theorem powerUp : Obligations.PowerUp := by
  intro s k hwf hph hcnt hopv hpins
  have hbusy := State.busy_heldFor hopv (k + 1)
  rw [hcnt] at hbusy
  exact ⟨_, run_heldFor hopv hwf hph hpins k, rfl, rfl, rfl, rfl, hbusy⟩

/-! ## A reply with one of bits 15:11 set -/

theorem srcRead_of_reply {p : Params} {R : RegDesc} {a : FrameAns} {w : Word} (hsend : a.send = .ok)
    (hrecv : a.recv = .ok w) : (srcRead p R a).2 = srcDecode R w := by
  have hframe : (srcExecute p (makeRead R.address) a).2 = .ok w := by simp [srcExecute_eq, frameResult, hsend, hrecv]
  rw [srcRead_snd, hframe]
  rfl

/-- No code of a field clears a snapshot bit above bit 10, and the framer takes none (R58, R91). -/
theorem makeWrite_encodeReg_of_highBits {R : RegDesc} {v : RegVal} (a : Addr) (hwf : R.wf = true)
    (hv : v.validFor R = true) (hhigh : v.bits &&& 0xF800#16 ≠ 0#16) :
    makeWrite a (encodeReg R v) = .error .payloadTooWide := by
  rw [← encodeReg_highBits hwf hv, Ne, and_F800] at hhigh
  exact makeWrite_ge _ _ (Nat.not_lt.1 hhigh)

/-- Settles O59: the snapshot of the value read is the reply, so the write that follows fails in framing. -/
theorem highBitsMakeUnwritable : Obligations.HighBitsMakeUnwritable := by
  intro p R f w v0 a1 a2 hwf hsend hrecv hdec hhigh hbits hvalid
  have hv0 : v0.bits = w := by rw [(decodeReg_ok_inv R w v0 hdec).2]
  have hread : (srcRead p R a1).2 = .ok v0 := by simp [srcRead_of_reply hsend hrecv, srcDecode, hdec]
  have hwrite := makeWrite_encodeReg_of_highBits R.address hwf hvalid (by rwa [hbits, hv0])
  rw [srcModify, andThen_of_ok _ hread, srcWrite_of_error hwrite, andThen_of_error _ rfl, List.append_nil]
  exact ⟨rfl, sentWords_srcRead p R a1⟩

end Sys2Proof.Machine
end
